-- ==== Sys2Proof/Word.lean ====
section
/-! DEFINITION. The byte and byte sequences (spec/00_scope.md R9), the only word types the block has. -/

namespace Sys2Proof

/-- One byte. Bit 0 is the least significant bit (R8). -/
abbrev Byte := BitVec 8

/-- A finite byte sequence: a packet, a payload, a fragment buffer or an emitted unit (R9). -/
abbrev Bytes := List Byte

end Sys2Proof
end

