-- ==== Sys2Proof/Machine/Flags.lean ====
section
/-! DEFINITION. The bit fields of the header bytes. The block has no persistent flags (spec/10_state.md R39): V, P, X, CC, M,
PT, F, NRI, TYPE, S, E, R and OTYPE are fields of the current packet, bit slices of one byte (R8, R104). -/

namespace Sys2Proof.Machine

/-! RTP header byte 0, `V(2) P(1) X(1) CC(4)`, and byte 1, `M(1) PT(7)` (R93). -/

/-- V = p[0][7:6] -/
def rtpV (b0 : Byte) : BitVec 2 := b0.extractLsb' 6 2

/-- P = p[0][5] -/
def rtpP (b0 : Byte) : Bool := b0.getLsbD 5

/-- X = p[0][4] -/
def rtpX (b0 : Byte) : Bool := b0.getLsbD 4

/-- CC = p[0][3:0] -/
def rtpCc (b0 : Byte) : BitVec 4 := b0.extractLsb' 0 4

/-- M = p[1][7] -/
def rtpM (b1 : Byte) : Bool := b1.getLsbD 7

/-- PT = p[1][6:0] -/
def rtpPt (b1 : Byte) : BitVec 7 := b1.extractLsb' 0 7

/-! A row of the decode tables matches when the word AND the row's mask is the row's match value (spec/30_encoding.md). -/

/-- A `nal8` row over `pl[0]` (R98). -/
def rowMatches8 (mask value b : Byte) : Bool := b &&& mask == value

/-- A `fu16` row over `be16(pl, 0)`; every one has the mask 0x1FC0 (R99). -/
def rowMatches16 (value w : BitVec 16) : Bool := w &&& 0x1FC0#16 == value

/-! The NAL header byte (R97). Only TYPE selects the operation; F and NRI are copied, never checked. -/

/-- F = pl[0][7] -/
def nalF (b : Byte) : Bool := b.getLsbD 7

/-- NRI = pl[0][6:5] -/
def nalNri (b : Byte) : BitVec 2 := b.extractLsb' 5 2

/-- TYPE = pl[0][4:0] -/
def nalType (b : Byte) : BitVec 5 := b.extractLsb' 0 5

/-! The FU header, byte 1 of an FU payload, `S(1) E(1) R(1) type(5)` (R99). R is ignored: no operation reads `fuR`. -/

/-- S = pl[1][7] -/
def fuS (b : Byte) : Bool := b.getLsbD 7

/-- E = pl[1][6] -/
def fuE (b : Byte) : Bool := b.getLsbD 6

/-- R = pl[1][5] -/
def fuR (b : Byte) : Bool := b.getLsbD 5

/-- OTYPE = pl[1][4:0] -/
def fuOtype (b : Byte) : BitVec 5 := b.extractLsb' 0 5

/-- The reconstructed NAL header byte `(ind AND 0xE0) OR OTYPE` (R232; 90_conflicts.md C8). -/
def reconHeader (ind fuHdr : Byte) : Byte := (ind &&& (0xE0 : Byte)) ||| (fuOtype fuHdr).setWidth 8

end Sys2Proof.Machine
end

