-- ==== Sys2Proof/Config.lean ====
section
/-! DEFINITION. The three instantiation parameters of an instance (spec/00_scope.md R6). They are fixed for the life of an
instance and no command changes them; MAX_PKT_LEN and FU_BUF_CAP are OPEN in the spec (92_eei_decisions.md D4, D19), so a
State carries them and every statement holds for every value (log 1). The block has no free value (93, section 1). -/

namespace Sys2Proof

/-- FRAMING: which byte layout STAP-B, MTAP16, MTAP24 and FU-B use (R6; 90_conflicts.md C1, C2). -/
inductive Framing
  | doc
  | rfc6184
deriving DecidableEq, Repr

/-- FU_BUF_CAP: the longest content one fragmentation buffer may hold, or `INF`, no cap (R6). -/
inductive BufCap
  | bytes (n : Nat)
  | inf
deriving DecidableEq, Repr

/-- The parameters of one instance (R6). -/
structure Params where
  maxPktLen : Nat
  fuBufCap  : BufCap
  framing   : Framing
deriving DecidableEq, Repr

/-- The values R6 admits: MAX_PKT_LEN at least 12, FU_BUF_CAP at least 1 or INF. -/
def Params.legal (c : Params) : Bool :=
  decide (12 ≤ c.maxPktLen) &&
    match c.fuBufCap with
    | .bytes n => decide (1 ≤ n)
    | .inf => true

/-- DESIGN CHOICE (log 1): the parameters of the instance that `State.reset` is. FRAMING is the spec's default; MAX_PKT_LEN
and FU_BUF_CAP are open, and take the values 95_test_vectors.md section 0 takes for its vectors. -/
def Config.resetParams : Params := { maxPktLen := 1500, fuBufCap := .inf, framing := .doc }

end Sys2Proof
end

