-- ==== Sys2Proof/Syntax.lean ====
section
/-! DEFINITION. The command of the host, the header record, and the instructions: one constructor per row of
spec/opcode_table.json, in the table's order. -/

namespace Sys2Proof

/-- A command `(CMD, p)`: the 8-bit command code and the packet (R91). -/
structure Command where
  code   : Byte
  packet : Bytes
deriving DecidableEq, Repr

/-- The extension header, present iff X = 1 (R36, R95). -/
structure ExtHeader where
  /-- EXT_PROFILE -/
  profile : BitVec 16
  /-- EXT_LEN, in 32-bit words -/
  len     : BitVec 16
  /-- EXT_DATA, opaque bytes -/
  data    : Bytes
deriving DecidableEq, Repr

/-- The header record H (R36). HLEN and PL_END are lengths, held as Nat (R12; log 12). -/
structure Header where
  v     : BitVec 2
  p     : Bool
  x     : Bool
  cc    : BitVec 4
  m     : Bool
  pt    : BitVec 7
  seq   : BitVec 16
  ts    : BitVec 32
  ssrc  : BitVec 32
  csrc  : List (BitVec 32)
  ext   : Option ExtHeader
  hlen  : Nat
  pad   : Byte
  plEnd : Nat
deriving DecidableEq, Repr

/-- The instructions. The `cmd` rows take the command's packet; the `nal8` and `fu16` rows are EXTRACT refined by the first
bytes of its payload (R98, R99; log 5), and take what the spec passes their procedures: the header record and the payload. An
instruction whose payload is not of its row is ill formed; its meaning is its constructor's (log 17). -/
inductive Instr
  /-- RESET, CMD 0x00 (R171) -/
  | reset
  /-- PARSE, CMD 0x01 (R130) -/
  | parse (p : Bytes)
  /-- EXTRACT, CMD 0x02 (R172) -/
  | extract (p : Bytes)
  /-- RESERVED, TYPE 0 (R174) -/
  | reservedType0 (h : Header) (pl : Bytes)
  /-- RESERVED, TYPE 30 and 31 (R174) -/
  | reservedType30To31 (h : Header) (pl : Bytes)
  /-- SINGLE_NAL, TYPE 1 (R175) -/
  | singleNalType1 (h : Header) (pl : Bytes)
  /-- SINGLE_NAL, TYPE 2 and 3 (R175) -/
  | singleNalType2To3 (h : Header) (pl : Bytes)
  /-- SINGLE_NAL, TYPE 4 to 7 (R175) -/
  | singleNalType4To7 (h : Header) (pl : Bytes)
  /-- SINGLE_NAL, TYPE 8 to 15 (R175) -/
  | singleNalType8To15 (h : Header) (pl : Bytes)
  /-- SINGLE_NAL, TYPE 16 to 23 (R175) -/
  | singleNalType16To23 (h : Header) (pl : Bytes)
  /-- STAP-A, TYPE 24 (R192) -/
  | stapA (h : Header) (pl : Bytes)
  /-- STAP-B, TYPE 25 (R193) -/
  | stapB (h : Header) (pl : Bytes)
  /-- MTAP16, TYPE 26 (R194) -/
  | mtap16 (h : Header) (pl : Bytes)
  /-- MTAP24, TYPE 27 (R195) -/
  | mtap24 (h : Header) (pl : Bytes)
  /-- FU-A, TYPE 28: the whole of R238, whichever sub-operation its FU header selects -/
  | fuA (h : Header) (pl : Bytes)
  /-- FU-B, TYPE 29: the whole of R239 -/
  | fuB (h : Header) (pl : Bytes)
  /-- FU-A.START, S=1 E=0 (R233) -/
  | fuAStart (h : Header) (pl : Bytes)
  /-- FU-A.MIDDLE, S=0 E=0 (R234) -/
  | fuAMiddle (h : Header) (pl : Bytes)
  /-- FU-A.END, S=0 E=1 (R234, R235) -/
  | fuAEnd (h : Header) (pl : Bytes)
  /-- FU-A.START_END, S=1 E=1 (R236) -/
  | fuAStartEnd (h : Header) (pl : Bytes)
  /-- FU-B.START (R233) -/
  | fuBStart (h : Header) (pl : Bytes)
  /-- FU-B.MIDDLE (R234) -/
  | fuBMiddle (h : Header) (pl : Bytes)
  /-- FU-B.END (R234, R235) -/
  | fuBEnd (h : Header) (pl : Bytes)
  /-- FU-B.START_END (R236) -/
  | fuBStartEnd (h : Header) (pl : Bytes)
deriving DecidableEq, Repr

end Sys2Proof
end

