-- ==== Sys2Proof/Machine/State.lean ====
section
/-! DEFINITION. The state of one instance (spec/10_state.md), the result record a command leaves, the error reasons, and the
two ways a step can stop. -/

namespace Sys2Proof.Machine

/-- The three error kinds (R270). -/
inductive ErrorKind
  | malformedPacket
  | orphanedFragment
  | illegalCommand
deriving DecidableEq, Repr

/-- The error reasons, in the order of R271. None of them stops the machine: each is the status of a result (R274). -/
inductive Reason
  | packetTooLong
  | shortFixedHeader
  | shortCsrcList
  | shortExtHeader
  | shortExtData
  | paddingOverrun
  | emptyPayload
  | shortAggHeader
  | truncatedPrefix
  | entryOverrun
  | trailingBytes
  | emptyEntry
  | shortFuHeader
  | fragmentTooLarge
  | orphanedFragment
  | illegalCommand
deriving DecidableEq, Repr

/-- The status of a result: the six success statuses of R37 and the error statuses of R271; `statusCode` gives the 8-bit code
(log 18). -/
inductive Status
  | resetDone
  | header
  | nothingReserved
  | nothingAbsorbed
  | one
  | seq
  | error (reason : Reason)
deriving DecidableEq, Repr

/-- The metadata of one aggregation entry: `don` 16 bits or none, `tso` 24 bits or none (R38). -/
structure EntryMeta where
  don : Option (BitVec 16)
  tso : Option (BitVec 24)
deriving DecidableEq, Repr

/-- The aggregation metadata record AggMeta (R38). -/
structure AggMeta where
  pdon    : Option (BitVec 16)
  ptso    : Option (BitVec 16)
  entries : List EntryMeta
deriving DecidableEq, Repr

/-- The result record of a command (R37). -/
structure Result where
  status  : Status
  header  : Option Header
  units   : List Bytes
  aggMeta : Option AggMeta
deriving DecidableEq, Repr

/-- The two fragmentation types (R32). -/
inductive FuType
  | A
  | B
deriving DecidableEq, Repr

/-- The four aggregation types, 24 to 27 (R98). -/
inductive AggType
  | stapA
  | stapB
  | mtap16
  | mtap24
deriving DecidableEq, Repr

/-- A fragmentation machine, `Idle | Accumulating(buf)` (R32). -/
inductive FuState
  | idle
  | accumulating (buf : Bytes)
deriving DecidableEq, Repr

/-- One instance (log 15). The spec gives it no addressable memory (R60; log 9). `fuA` and `fuB` are the whole persistent state the spec gives it (R31). `params` are the instantiation
parameters, which no step writes (R6; log 1). `command` and `result` are the model's own: the command the host has issued and
the block has not taken (log 2), and the result of the last command (R37, R39; log 3). -/
structure State where
  fuA     : FuState
  fuB     : FuState
  params  : Params
  command : Option Command
  result  : Option Result
deriving DecidableEq, Repr

/-- The reasons a step stops with a fault. -/
inductive Fault
  /-- Raised by `step` when the host has issued no command. Safe: the spec gives the block no transition between commands
  (93_implementation_defined.md I14, "stuck"; R281); log 2. -/
  | noCommand
deriving DecidableEq, Repr

/-- The reasons an instruction is refused. -/
inductive Refusal
  /-- Raised by an arm of `exec` whose instruction has no meaning yet. Safe. No arm answers with it in this model. -/
  | notModelled (mnemonic : String)
deriving DecidableEq, Repr

/-- The instance right after power-on: both machines `Idle` (R44, R300), no command issued, no result given, and the
parameters of `Config.resetParams` (log 1). -/
def State.reset : State :=
  { fuA := .idle, fuB := .idle, params := Config.resetParams, command := none, result := none }

end Sys2Proof.Machine
end

