-- ==== Sys2Proof/Machine/Operands.lean ====
section
/-! DEFINITION. Reading fields of a byte sequence: big-endian, zero-extended, at any offset (spec/00_scope.md R10,
20_memory.md R65, R66), their inverses for the encoder, and the lengths each format decides. -/

namespace Sys2Proof.Machine

/-- `u8(s, a)`. Every rule checks the bounds before it reads (R69), so the 0 of an offset past the end is never used (log 8). -/
def u8 (s : Bytes) (a : Nat) : Byte := s.getD a 0#8

/-- `be16(s, a)`: the byte at the lower offset is the more significant. -/
def be16 (s : Bytes) (a : Nat) : BitVec 16 := u8 s a ++ u8 s (a + 1)

/-- `be24(s, a)` -/
def be24 (s : Bytes) (a : Nat) : BitVec 24 := u8 s a ++ u8 s (a + 1) ++ u8 s (a + 2)

/-- `be32(s, a)` -/
def be32 (s : Bytes) (a : Nat) : BitVec 32 := u8 s a ++ u8 s (a + 1) ++ u8 s (a + 2) ++ u8 s (a + 3)

/-- `MemRead(a, k) = Σ_{i<k} s[a+i] · 2^(8(k−1−i))` (R10), the spec's own reading of `k` bytes. -/
def memRead (s : Bytes) (a : Nat) : Nat → Nat
  | 0 => 0
  | k + 1 => (u8 s a).toNat * 2 ^ (8 * k) + memRead s (a + 1) k

/-- `s[a .. b)` (R9). -/
def slice (s : Bytes) (a b : Nat) : Bytes := (s.drop a).take (b - a)

/-- The two bytes of a 16-bit field, most significant first (R104); `len16` of R108 is this of a length. -/
def bytes16 (v : BitVec 16) : Bytes := [v.extractLsb' 8 8, v.extractLsb' 0 8]

/-- The three bytes of a 24-bit field. -/
def bytes24 (v : BitVec 24) : Bytes := [v.extractLsb' 16 8, v.extractLsb' 8 8, v.extractLsb' 0 8]

/-- The four bytes of a 32-bit field. -/
def bytes32 (v : BitVec 32) : Bytes :=
  [v.extractLsb' 24 8, v.extractLsb' 16 8, v.extractLsb' 8 8, v.extractLsb' 0 8]

/-- `FUHL(k)`, the bytes of an FU payload before its fragment (R100, R101, R231; 90_conflicts.md C1; log 13). -/
def fuHeaderLen : Framing → FuType → Nat
  | _, .A => 2
  | .doc, .B => 5
  | .rfc6184, .B => 4

/-- `START`, the offset of the first entry of an aggregation payload (R102, R103; log 13). -/
def aggStart : Framing → AggType → Nat
  | _, .stapA => 1
  | .doc, .stapB => 5
  | .doc, .mtap16 => 1
  | .doc, .mtap24 => 1
  | .rfc6184, .stapB => 3
  | .rfc6184, .mtap16 => 3
  | .rfc6184, .mtap24 => 3

/-- `PFX`, the bytes that must remain for an entry to be read (R102, R103). -/
def aggPfx : Framing → AggType → Nat
  | _, .stapA => 2
  | .doc, .stapB => 4
  | .doc, .mtap16 => 6
  | .doc, .mtap24 => 7
  | .rfc6184, .stapB => 2
  | .rfc6184, .mtap16 => 2
  | .rfc6184, .mtap24 => 2

/-- `PacketFields`: the packet-level DON and timestamp offset (R192 to R195). -/
def packetFields (f : Framing) (t : AggType) (pl : Bytes) : Option (BitVec 16) × Option (BitVec 16) :=
  match f, t with
  | _, .stapA => (none, none)
  | .doc, .stapB => (some (be16 pl 1), some (be16 pl 3))
  | .doc, .mtap16 => (none, none)
  | .doc, .mtap24 => (none, none)
  | .rfc6184, .stapB => (some (be16 pl 1), none)
  | .rfc6184, .mtap16 => (some (be16 pl 1), none)
  | .rfc6184, .mtap24 => (some (be16 pl 1), none)

/-- `hdr`, the bytes of an entry before its unit: PFX for every layout except RFC6184 MTAP, where it is 2 + K (R190). -/
def aggHdr : Framing → AggType → Nat
  | _, .stapA => 2
  | .doc, .stapB => 4
  | .doc, .mtap16 => 6
  | .doc, .mtap24 => 7
  | .rfc6184, .stapB => 2
  | .rfc6184, .mtap16 => 5
  | .rfc6184, .mtap24 => 6

/-- `L` of `EntryLength`, the unit's length (R192 to R195). Under RFC6184 the size field of an MTAP entry counts DOND and TSO,
and the truncated difference is R194's "L = 0 when SZ < 3" and R195's "L = 0 when SZ < 4". -/
def entryLen (f : Framing) (t : AggType) (pl : Bytes) (o : Nat) : Nat :=
  match f, t with
  | _, .stapA => (be16 pl o).toNat
  | .doc, .stapB => (be16 pl (o + 2)).toNat
  | .doc, .mtap16 => (be16 pl (o + 4)).toNat
  | .doc, .mtap24 => (be16 pl (o + 5)).toNat
  | .rfc6184, .stapB => (be16 pl o).toNat
  | .rfc6184, .mtap16 => (be16 pl o).toNat - 3
  | .rfc6184, .mtap24 => (be16 pl o).toNat - 4

/-- `EntryMeta(t, pl, o, i, pdon, ptso)` (R192 to R195). DONs wrap at 16 bits; a 16-bit offset is zero-extended to the 24 bits
of the record's field (R38; log 11). -/
def entryMeta (f : Framing) (t : AggType) (pl : Bytes) (o i : Nat) (pdon ptso : Option (BitVec 16)) : EntryMeta :=
  match f, t with
  | _, .stapA => { don := none, tso := none }
  | .doc, .stapB => { don := some (be16 pl o), tso := ptso.map (·.setWidth 24) }
  | .doc, .mtap16 => { don := some (be16 pl o), tso := some ((be16 pl (o + 2)).setWidth 24) }
  | .doc, .mtap24 => { don := some (be16 pl o), tso := some (be24 pl (o + 2)) }
  | .rfc6184, .stapB => { don := pdon.map (· + BitVec.ofNat 16 i), tso := none }
  | .rfc6184, .mtap16 =>
    { don := pdon.map (· + (u8 pl (o + 2)).setWidth 16), tso := some ((be16 pl (o + 3)).setWidth 24) }
  | .rfc6184, .mtap24 =>
    { don := pdon.map (· + (u8 pl (o + 2)).setWidth 16), tso := some (be24 pl (o + 3)) }

end Sys2Proof.Machine
end

