-- ==== Sys2Proof/Machine/HeaderParser.lean ====
section
/-! DEFINITION. The RTP header parser (spec/41_rtp_header.md): the procedures HeaderParse and Payload, functions of the packet
and MAX_PKT_LEN alone (R137). PARSE and EXTRACT both run them. -/

namespace Sys2Proof.Machine

/-- The nine fixed fields (R93, R132), none of them checked (R138). PAD and PL_END are Payload's to write (log 10). -/
def fixedHeader (p : Bytes) : Header :=
  { v := rtpV (u8 p 0), p := rtpP (u8 p 0), x := rtpX (u8 p 0), cc := rtpCc (u8 p 0),
    m := rtpM (u8 p 1), pt := rtpPt (u8 p 1),
    seq := be16 p 2, ts := be32 p 4, ssrc := be32 p 8,
    csrc := [], ext := none, hlen := 0, pad := 0#8, plEnd := 0 }

/-- `CSRC[i] = be32(p, 12 + 4i)` for `i < n` (R94). -/
def csrcList (p : Bytes) (n : Nat) : List (BitVec 32) := (List.range n).map fun i => be32 p (12 + 4 * i)

/-- `HeaderParse(p)` (R135). -/
def headerParse (maxLen : Nat) (p : Bytes) : Except Reason Header :=
  let n := p.length
  if maxLen < n then .error .packetTooLong
  else if n < 12 then .error .shortFixedHeader
  else
    let h := fixedHeader p
    let e := 12 + 4 * h.cc.toNat
    if n < e then .error .shortCsrcList
    else
      let h := { h with csrc := csrcList p h.cc.toNat }
      if h.x then
        if n < e + 4 then .error .shortExtHeader
        else
          let len := be16 p (e + 2)
          let hlen := e + 4 + 4 * len.toNat
          if n < hlen then .error .shortExtData
          else .ok { h with
            ext := some { profile := be16 p e, len := len, data := slice p (e + 4) hlen }, hlen := hlen }
      else .ok { h with hlen := e }

/-- `Payload(p, H)` (R136): H with PAD and PL_END, and the payload with the padding removed. -/
def payload (p : Bytes) (h : Header) : Except Reason (Header × Bytes) :=
  let n := p.length
  if h.p then
    if n = h.hlen then .error .paddingOverrun
    else
      let N := u8 p (n - 1)
      if n - h.hlen < N.toNat then .error .paddingOverrun
      else .ok ({ h with pad := N, plEnd := n - N.toNat }, slice p h.hlen (n - N.toNat))
  else .ok ({ h with pad := 0#8, plEnd := n }, slice p h.hlen n)

/-- HeaderParse and then Payload, the common beginning of PARSE (R130) and EXTRACT (R172). -/
def parsePacket (maxLen : Nat) (p : Bytes) : Except Reason (Header × Bytes) :=
  match headerParse maxLen p with
  | .error e => .error e
  | .ok h => payload p h

/-- EXTRACT up to its dispatch (R172): the header record and a payload that is not empty. -/
def extractOperands (maxLen : Nat) (p : Bytes) : Except Reason (Header × Bytes) :=
  match parsePacket maxLen p with
  | .error e => .error e
  | .ok (h, pl) => if pl.length = 0 then .error .emptyPayload else .ok (h, pl)

end Sys2Proof.Machine
end

