-- ==== Sys2Proof/WellFormed.lean ====
section
/-! DEFINITION. When an instruction is well formed, as checks that evaluate: its header record and payload are what a packet of
at most MAX_PKT_LEN bytes can give (R36, R105, R136), and the payload's first bytes are those of its row (R98, R99). -/

namespace Sys2Proof

open Machine

/-- HLEN as R105 computes it from the fields of the record. -/
def Header.lengthOf (h : Header) : Nat :=
  12 + 4 * h.cc.toNat + match h.ext with
    | none => 0
    | some e => 4 + 4 * e.len.toNat

/-- The CSRC list has CC entries (R94). -/
def Header.csrcOk (h : Header) : Bool := h.csrc.length == h.cc.toNat

/-- An extension header is there exactly when X = 1, with 4 * EXT_LEN data bytes (R95). -/
def Header.extOk (h : Header) : Bool :=
  match h.ext with
  | none => !h.x
  | some e => h.x && e.data.length == 4 * e.len.toNat

/-- HLEN and PL_END are the bounds of the payload (R105, R136). -/
def Header.boundsOk (h : Header) (pl : Bytes) : Bool :=
  h.hlen == h.lengthOf && h.plEnd == h.hlen + pl.length

/-- PAD is 0 when P = 0. When P = 1 it is the packet's last byte: a count of 0 drops nothing and stays the payload's last
byte (R96, R136). -/
def Header.padOk (h : Header) (pl : Bytes) : Bool :=
  if h.p then h.pad != 0#8 || pl.getLast? == some 0#8 else h.pad == 0#8

/-- The whole packet has at most MAX_PKT_LEN bytes (R131). -/
def Header.sizeOk (h : Header) (maxLen : Nat) : Bool := decide (h.plEnd + h.pad.toNat ≤ maxLen)

/-- A packet of at most `maxLen` bytes can have this header record and this payload. -/
def Header.consistent (h : Header) (maxLen : Nat) (pl : Bytes) : Bool :=
  h.csrcOk && h.extOk && h.boundsOk pl && h.padOk pl && h.sizeOk maxLen

/-- The payload has a first byte that matches a `nal8` row (R98). -/
def matchesNal8 (mask value : Byte) (pl : Bytes) : Bool :=
  decide (1 ≤ pl.length) && rowMatches8 mask value (u8 pl 0)

/-- The payload has a second byte too, and `be16(pl, 0)` matches a `fu16` row (R99). -/
def matchesFu16 (value : BitVec 16) (pl : Bytes) : Bool :=
  decide (2 ≤ pl.length) && rowMatches16 value (be16 pl 0)

/-- Well-formed for an instance whose MAX_PKT_LEN is `maxLen`. An `extract` that stands for itself is one whose packet raises
before the dispatch; a `fuA` or `fuB` that stands for itself has no FU header to select a `fu16` row (log 5). -/
def Instr.wellFormed (maxLen : Nat) : Instr → Bool
  | .reset => true
  | .parse _ => true
  | .extract p =>
    match extractOperands maxLen p with
    | .ok _ => false
    | .error _ => true
  | .reservedType0 h pl => h.consistent maxLen pl && matchesNal8 0x1F#8 0x00#8 pl
  | .reservedType30To31 h pl => h.consistent maxLen pl && matchesNal8 0x1E#8 0x1E#8 pl
  | .singleNalType1 h pl => h.consistent maxLen pl && matchesNal8 0x1F#8 0x01#8 pl
  | .singleNalType2To3 h pl => h.consistent maxLen pl && matchesNal8 0x1E#8 0x02#8 pl
  | .singleNalType4To7 h pl => h.consistent maxLen pl && matchesNal8 0x1C#8 0x04#8 pl
  | .singleNalType8To15 h pl => h.consistent maxLen pl && matchesNal8 0x18#8 0x08#8 pl
  | .singleNalType16To23 h pl => h.consistent maxLen pl && matchesNal8 0x18#8 0x10#8 pl
  | .stapA h pl => h.consistent maxLen pl && matchesNal8 0x1F#8 0x18#8 pl
  | .stapB h pl => h.consistent maxLen pl && matchesNal8 0x1F#8 0x19#8 pl
  | .mtap16 h pl => h.consistent maxLen pl && matchesNal8 0x1F#8 0x1A#8 pl
  | .mtap24 h pl => h.consistent maxLen pl && matchesNal8 0x1F#8 0x1B#8 pl
  | .fuA h pl => h.consistent maxLen pl && matchesNal8 0x1F#8 0x1C#8 pl && pl.length == 1
  | .fuB h pl => h.consistent maxLen pl && matchesNal8 0x1F#8 0x1D#8 pl && pl.length == 1
  | .fuAStart h pl => h.consistent maxLen pl && matchesFu16 0x1C80#16 pl
  | .fuAMiddle h pl => h.consistent maxLen pl && matchesFu16 0x1C00#16 pl
  | .fuAEnd h pl => h.consistent maxLen pl && matchesFu16 0x1C40#16 pl
  | .fuAStartEnd h pl => h.consistent maxLen pl && matchesFu16 0x1CC0#16 pl
  | .fuBStart h pl => h.consistent maxLen pl && matchesFu16 0x1D80#16 pl
  | .fuBMiddle h pl => h.consistent maxLen pl && matchesFu16 0x1D00#16 pl
  | .fuBEnd h pl => h.consistent maxLen pl && matchesFu16 0x1D40#16 pl
  | .fuBStartEnd h pl => h.consistent maxLen pl && matchesFu16 0x1DC0#16 pl

end Sys2Proof
end

