-- ==== Sys2Proof/Decode.lean ====
section
/-! DEFINITION. The decoder, total on any command, and the encoder, both from the encoding tables of spec/30_encoding.md
(R91 to R103). The decoder refines an EXTRACT to the row its payload selects; the encoder writes the command back. -/

namespace Sys2Proof

open Machine

/-! ## The decoder -/

/-- Why a command is not decoded. -/
inductive DecodeError
  /-- A command code of 0x03 to 0xFF (R92). -/
  | illegalCommand (code : Byte)
deriving DecidableEq, Repr

/-- The sub-operation of an FU-A payload (R99), selected by `be16(pl, 0)`; without a second byte it is FU-A itself. -/
def decodeFuA (h : Header) (pl : Bytes) : Instr :=
  if pl.length < 2 then .fuA h pl
  else
    let w := be16 pl 0
    if rowMatches16 0x1C80#16 w then .fuAStart h pl
    else if rowMatches16 0x1C00#16 w then .fuAMiddle h pl
    else if rowMatches16 0x1C40#16 w then .fuAEnd h pl
    else if rowMatches16 0x1CC0#16 w then .fuAStartEnd h pl
    else .fuA h pl

/-- The sub-operation of an FU-B payload (R99). -/
def decodeFuB (h : Header) (pl : Bytes) : Instr :=
  if pl.length < 2 then .fuB h pl
  else
    let w := be16 pl 0
    if rowMatches16 0x1D80#16 w then .fuBStart h pl
    else if rowMatches16 0x1D00#16 w then .fuBMiddle h pl
    else if rowMatches16 0x1D40#16 w then .fuBEnd h pl
    else if rowMatches16 0x1DC0#16 w then .fuBStartEnd h pl
    else .fuB h pl

/-- The dispatch map over the payload's first byte, row by row as R98 lists it. The last row, TYPE 30 and 31, is what the
twelve rows before it leave (every byte matches exactly one row). -/
def decodeNal (h : Header) (pl : Bytes) : Instr :=
  let b := u8 pl 0
  if rowMatches8 0x1F#8 0x00#8 b then .reservedType0 h pl
  else if rowMatches8 0x1F#8 0x01#8 b then .singleNalType1 h pl
  else if rowMatches8 0x1E#8 0x02#8 b then .singleNalType2To3 h pl
  else if rowMatches8 0x1C#8 0x04#8 b then .singleNalType4To7 h pl
  else if rowMatches8 0x18#8 0x08#8 b then .singleNalType8To15 h pl
  else if rowMatches8 0x18#8 0x10#8 b then .singleNalType16To23 h pl
  else if rowMatches8 0x1F#8 0x18#8 b then .stapA h pl
  else if rowMatches8 0x1F#8 0x19#8 b then .stapB h pl
  else if rowMatches8 0x1F#8 0x1A#8 b then .mtap16 h pl
  else if rowMatches8 0x1F#8 0x1B#8 b then .mtap24 h pl
  else if rowMatches8 0x1F#8 0x1C#8 b then decodeFuA h pl
  else if rowMatches8 0x1F#8 0x1D#8 b then decodeFuB h pl
  else .reservedType30To31 h pl

/-- The command an instance with MAX_PKT_LEN = `maxLen` is given, as an instruction (R91, R92, R98, R99). An EXTRACT whose
packet raises before the dispatch stays EXTRACT. -/
def decode (maxLen : Nat) (c : Command) : Except DecodeError Instr :=
  if c.code = 0x00#8 then .ok .reset
  else if c.code = 0x01#8 then .ok (.parse c.packet)
  else if c.code = 0x02#8 then
    match extractOperands maxLen c.packet with
    | .error _ => .ok (.extract c.packet)
    | .ok (h, pl) => .ok (decodeNal h pl)
  else .error (.illegalCommand c.code)

/-! ## The encoder -/

/-- Byte 0 of the RTP header, `V(2) P(1) X(1) CC(4)` (R93). -/
def rtpByte0 (h : Header) : Byte := h.v ++ BitVec.ofBool h.p ++ BitVec.ofBool h.x ++ h.cc

/-- Byte 1, `M(1) PT(7)` (R93). -/
def rtpByte1 (h : Header) : Byte := BitVec.ofBool h.m ++ h.pt

/-- The extension header (R95). -/
def extBytes : Option ExtHeader → Bytes
  | none => []
  | some e => bytes16 e.profile ++ bytes16 e.len ++ e.data

/-- The RTP header: fixed header, CSRC list, extension (R93 to R95). -/
def headerBytes (h : Header) : Bytes :=
  [rtpByte0 h, rtpByte1 h] ++ bytes16 h.seq ++ bytes32 h.ts ++ bytes32 h.ssrc ++ h.csrc.flatMap bytes32 ++ extBytes h.ext

/-- A padding trailer of `pad` bytes, the last of them the count (R96); the others are 0 (log 7). -/
def padBytes (pad : Byte) : Bytes :=
  if pad = 0#8 then [] else List.replicate (pad.toNat - 1) 0#8 ++ [pad]

/-- The packet with this header record and this payload. -/
def encodePacket (h : Header) (pl : Bytes) : Bytes := headerBytes h ++ pl ++ padBytes h.pad

/-- The command of an instruction. -/
def encode : Instr → Command
  | .reset => { code := 0x00, packet := [] }
  | .parse p => { code := 0x01, packet := p }
  | .extract p => { code := 0x02, packet := p }
  | .reservedType0 h pl => { code := 0x02, packet := encodePacket h pl }
  | .reservedType30To31 h pl => { code := 0x02, packet := encodePacket h pl }
  | .singleNalType1 h pl => { code := 0x02, packet := encodePacket h pl }
  | .singleNalType2To3 h pl => { code := 0x02, packet := encodePacket h pl }
  | .singleNalType4To7 h pl => { code := 0x02, packet := encodePacket h pl }
  | .singleNalType8To15 h pl => { code := 0x02, packet := encodePacket h pl }
  | .singleNalType16To23 h pl => { code := 0x02, packet := encodePacket h pl }
  | .stapA h pl => { code := 0x02, packet := encodePacket h pl }
  | .stapB h pl => { code := 0x02, packet := encodePacket h pl }
  | .mtap16 h pl => { code := 0x02, packet := encodePacket h pl }
  | .mtap24 h pl => { code := 0x02, packet := encodePacket h pl }
  | .fuA h pl => { code := 0x02, packet := encodePacket h pl }
  | .fuB h pl => { code := 0x02, packet := encodePacket h pl }
  | .fuAStart h pl => { code := 0x02, packet := encodePacket h pl }
  | .fuAMiddle h pl => { code := 0x02, packet := encodePacket h pl }
  | .fuAEnd h pl => { code := 0x02, packet := encodePacket h pl }
  | .fuAStartEnd h pl => { code := 0x02, packet := encodePacket h pl }
  | .fuBStart h pl => { code := 0x02, packet := encodePacket h pl }
  | .fuBMiddle h pl => { code := 0x02, packet := encodePacket h pl }
  | .fuBEnd h pl => { code := 0x02, packet := encodePacket h pl }
  | .fuBStartEnd h pl => { code := 0x02, packet := encodePacket h pl }

/-! ## The aggregation encoder (R102, R103) -/

/-- What one entry of an aggregation payload carries: its unit, its own 16-bit DON (DOC) or the DOND byte (RFC6184 MTAP), and
its timestamp offset. A field its layout does not have is not written. -/
structure AggEntry where
  unit : Bytes
  don  : BitVec 16
  dond : Byte
  tso  : BitVec 24
deriving DecidableEq, Repr

/-- `len16(n)` (R108). -/
def len16 (n : Nat) : Bytes := bytes16 (BitVec.ofNat 16 n)

/-- One entry: the prefix fields of its layout, then the unit. -/
def aggEntryBytes (f : Framing) (t : AggType) (e : AggEntry) : Bytes :=
  match f, t with
  | _, .stapA => len16 e.unit.length ++ e.unit
  | .doc, .stapB => bytes16 e.don ++ len16 e.unit.length ++ e.unit
  | .doc, .mtap16 => bytes16 e.don ++ bytes16 (e.tso.setWidth 16) ++ len16 e.unit.length ++ e.unit
  | .doc, .mtap24 => bytes16 e.don ++ bytes24 e.tso ++ len16 e.unit.length ++ e.unit
  | .rfc6184, .stapB => len16 e.unit.length ++ e.unit
  | .rfc6184, .mtap16 => len16 (e.unit.length + 3) ++ [e.dond] ++ bytes16 (e.tso.setWidth 16) ++ e.unit
  | .rfc6184, .mtap24 => len16 (e.unit.length + 4) ++ [e.dond] ++ bytes24 e.tso ++ e.unit

/-- The packet-level fields after the first payload byte. -/
def aggPacketBytes (f : Framing) (t : AggType) (pdon ptso : BitVec 16) : Bytes :=
  match f, t with
  | _, .stapA => []
  | .doc, .stapB => bytes16 pdon ++ bytes16 ptso
  | .doc, .mtap16 => []
  | .doc, .mtap24 => []
  | .rfc6184, .stapB => bytes16 pdon
  | .rfc6184, .mtap16 => bytes16 pdon
  | .rfc6184, .mtap24 => bytes16 pdon

/-- An aggregation payload with first byte `b`. -/
def encodeAgg (f : Framing) (t : AggType) (b : Byte) (pdon ptso : BitVec 16) (es : List AggEntry) : Bytes :=
  [b] ++ aggPacketBytes f t pdon ptso ++ es.flatMap (aggEntryBytes f t)

/-! ## The table's rows -/

/-- What a row's `match` and `mask` apply to: the command code, `pl[0]`, or `be16(pl, 0)`. -/
inductive RowFormat
  | cmd
  | nal8
  | fu16
deriving DecidableEq, Repr

/-- A row of spec/opcode_table.json. -/
structure TableRow where
  format : RowFormat
  value  : BitVec 16
  mask   : BitVec 16
deriving DecidableEq, Repr

/-- The row of each instruction. -/
def tableRow : Instr → TableRow
  | .reset => ⟨.cmd, 0x00, 0xFF⟩
  | .parse _ => ⟨.cmd, 0x01, 0xFF⟩
  | .extract _ => ⟨.cmd, 0x02, 0xFF⟩
  | .reservedType0 _ _ => ⟨.nal8, 0x00, 0x1F⟩
  | .reservedType30To31 _ _ => ⟨.nal8, 0x1E, 0x1E⟩
  | .singleNalType1 _ _ => ⟨.nal8, 0x01, 0x1F⟩
  | .singleNalType2To3 _ _ => ⟨.nal8, 0x02, 0x1E⟩
  | .singleNalType4To7 _ _ => ⟨.nal8, 0x04, 0x1C⟩
  | .singleNalType8To15 _ _ => ⟨.nal8, 0x08, 0x18⟩
  | .singleNalType16To23 _ _ => ⟨.nal8, 0x10, 0x18⟩
  | .stapA _ _ => ⟨.nal8, 0x18, 0x1F⟩
  | .stapB _ _ => ⟨.nal8, 0x19, 0x1F⟩
  | .mtap16 _ _ => ⟨.nal8, 0x1A, 0x1F⟩
  | .mtap24 _ _ => ⟨.nal8, 0x1B, 0x1F⟩
  | .fuA _ _ => ⟨.nal8, 0x1C, 0x1F⟩
  | .fuB _ _ => ⟨.nal8, 0x1D, 0x1F⟩
  | .fuAStart _ _ => ⟨.fu16, 0x1C80, 0x1FC0⟩
  | .fuAMiddle _ _ => ⟨.fu16, 0x1C00, 0x1FC0⟩
  | .fuAEnd _ _ => ⟨.fu16, 0x1C40, 0x1FC0⟩
  | .fuAStartEnd _ _ => ⟨.fu16, 0x1CC0, 0x1FC0⟩
  | .fuBStart _ _ => ⟨.fu16, 0x1D80, 0x1FC0⟩
  | .fuBMiddle _ _ => ⟨.fu16, 0x1D00, 0x1FC0⟩
  | .fuBEnd _ _ => ⟨.fu16, 0x1D40, 0x1FC0⟩
  | .fuBStartEnd _ _ => ⟨.fu16, 0x1DC0, 0x1FC0⟩

/-- The word of a command that a row's mask applies to, when its payload begins at offset `off` of its packet. -/
def rowWord (c : Command) (off : Nat) : RowFormat → BitVec 16
  | .cmd => c.code.setWidth 16
  | .nal8 => (u8 c.packet off).setWidth 16
  | .fu16 => be16 c.packet off

/-! ## Words of the table -/

/-- The 12-byte RTP header in front of a table word: V = 2 and every other field 0 (log 6). -/
def tableWordHeader : Bytes := 0x80#8 :: List.replicate 11 0#8

/-- The command that holds the table word `w` of `nbits` bits (log 6). A word of two bytes is `be16(pl, 0)` of an EXTRACT
(format fu16), its high byte first. A word of one byte below 0x03 is a command code (format cmd) with twelve packet bytes of
zero; any other is `pl[0]` of an EXTRACT (format nal8). The operand bytes a type's layout needs after the word are 0. -/
def tableWordCommand (nbits w : Nat) : Command :=
  if 8 < nbits then
    let pl := bytes16 (BitVec.ofNat 16 w)
    { code := 0x02
      packet := tableWordHeader ++ pl ++ List.replicate (fuHeaderLen .doc .B - 2) 0#8 }
  else if w < 3 then { code := BitVec.ofNat 8 w, packet := List.replicate 12 0#8 }
  else
    let b := BitVec.ofNat 8 w
    { code := 0x02
      packet := tableWordHeader ++ [b] ++
        (if nalType b = 25#5 then List.replicate (aggStart .doc .stapB - 1) 0#8 else []) }

/-- The instruction the decoder reads from a table word, for an instance with the parameters of reset. -/
def decodeTableWord (nbits w : Nat) : Option Instr :=
  match decode Config.resetParams.maxPktLen (tableWordCommand nbits w) with
  | .ok i => some i
  | .error _ => none

end Sys2Proof
end

