-- ==== Sys2Proof/Machine/Ops.lean ====
section
/-! DEFINITION. The shared operations over an instance: delivering a result, raising an error, reading and writing a
fragmentation machine, taking the host's command. -/

namespace Sys2Proof.Machine

/-! ## Kinds and codes (R37, R270, R271) -/

/-- The kind of each reason (R271). -/
def reasonKind : Reason → ErrorKind
  | .orphanedFragment => .orphanedFragment
  | .illegalCommand => .illegalCommand
  | .packetTooLong => .malformedPacket
  | .shortFixedHeader => .malformedPacket
  | .shortCsrcList => .malformedPacket
  | .shortExtHeader => .malformedPacket
  | .shortExtData => .malformedPacket
  | .paddingOverrun => .malformedPacket
  | .emptyPayload => .malformedPacket
  | .shortAggHeader => .malformedPacket
  | .truncatedPrefix => .malformedPacket
  | .entryOverrun => .malformedPacket
  | .trailingBytes => .malformedPacket
  | .emptyEntry => .malformedPacket
  | .shortFuHeader => .malformedPacket
  | .fragmentTooLarge => .malformedPacket

/-- The 8-bit code of each reason (R271). -/
def reasonCode : Reason → BitVec 8
  | .packetTooLong => 0x80
  | .shortFixedHeader => 0x81
  | .shortCsrcList => 0x82
  | .shortExtHeader => 0x83
  | .shortExtData => 0x84
  | .paddingOverrun => 0x85
  | .emptyPayload => 0x86
  | .shortAggHeader => 0x87
  | .truncatedPrefix => 0x88
  | .entryOverrun => 0x89
  | .trailingBytes => 0x8A
  | .emptyEntry => 0x8B
  | .shortFuHeader => 0x8C
  | .fragmentTooLarge => 0x8D
  | .orphanedFragment => 0x90
  | .illegalCommand => 0xA0

/-- The 8-bit status code of a result (R37, R271). -/
def statusCode : Status → BitVec 8
  | .resetDone => 0x00
  | .header => 0x01
  | .nothingReserved => 0x10
  | .nothingAbsorbed => 0x11
  | .one => 0x20
  | .seq => 0x21
  | .error r => reasonCode r

/-! ## Results -/

/-- The error result: the code and nothing else (R270). -/
def errorResult (r : Reason) : Result := { status := .error r, header := none, units := [], aggMeta := none }

/-- End the command with this result. -/
def State.deliver (s : State) (r : Result) : State := { s with result := some r }

/-- Taking an error, the one shared operation: the command ends with the error result; nothing is saved, no mode changes and
there is nowhere to jump to (R274). -/
def State.raise (s : State) (r : Reason) : State := s.deliver (errorResult r)

/-! ## The fragmentation machines -/

/-- `st.fu[k]` (R11). -/
def State.fu (s : State) : FuType → FuState
  | .A => s.fuA
  | .B => s.fuB

/-- `st.fu[k] <- v` (R11). -/
def State.setFu (s : State) (k : FuType) (v : FuState) : State :=
  match k with
  | .A => { s with fuA := v }
  | .B => { s with fuB := v }

/-- A buffer of `n` bytes is not over the cap: not `n > FU_BUF_CAP` (R233, R234). -/
def capAdmits (c : BufCap) (n : Nat) : Bool :=
  match c with
  | .bytes m => decide (n ≤ m)
  | .inf => true

/-! ## The host's command -/

/-- Take the command the host issued: the port is free again. -/
def State.takeCommand (s : State) : State := { s with command := none }

/-- An undefined command code: the error result, `p` not read, no state changed (R92, R170). -/
def illegalCommand (s : State) : State := s.raise .illegalCommand

end Sys2Proof.Machine
end

