-- ==== Sys2Proof/Machine/Aggregation.lean ====
section
/-! DEFINITION. The aggregation packets (spec/43_aggregation.md): one walk, and its four types. -/

namespace Sys2Proof.Machine

/-- The loop of `AggWalk` (R190) from offset `o` and entry number `i`: the units and metadata of the entries from there on, or
the first error. An entry advances `o` by at least one byte, so `fuel = |pl|` bounds the entries (Laws/Aggregation.lean shows
that no more fuel changes the answer). -/
def aggLoop (f : Framing) (t : AggType) (pl : Bytes) (pdon ptso : Option (BitVec 16)) :
    Nat → Nat → Nat → Except Reason (List (Bytes × EntryMeta))
  | 0, _, _ => .ok []
  | fuel + 1, o, i =>
    if o < pl.length then
      let r := pl.length - o
      if r < aggPfx f t then
        .error (if i = 0 then .truncatedPrefix else .trailingBytes)
      else
        let L := entryLen f t pl o
        let hdr := aggHdr f t
        if L = 0 then .error .emptyEntry
        else if r < hdr + L then .error .entryOverrun
        else
          match aggLoop f t pl pdon ptso fuel (o + hdr + L) (i + 1) with
          | .error e => .error e
          | .ok rest => .ok ((slice pl (o + hdr) (o + hdr + L), entryMeta f t pl o i pdon ptso) :: rest)
    else .ok []

/-- `AggWalk(t, H, pl)` (R190): the SEQ result, or the error raised; nothing partial (R191). -/
def aggWalk (f : Framing) (t : AggType) (h : Header) (pl : Bytes) : Except Reason Result :=
  if pl.length < aggStart f t then .error .shortAggHeader
  else
    let (pdon, ptso) := packetFields f t pl
    match aggLoop f t pl pdon ptso pl.length (aggStart f t) 0 with
    | .error e => .error e
    | .ok es =>
      .ok { status := .seq, header := some h, units := es.map Prod.fst,
            aggMeta := some { pdon := pdon, ptso := ptso, entries := es.map Prod.snd } }

/-- Run the walk and end the command with what it gives; no machine is touched (R176, R191). -/
def aggOp (t : AggType) (h : Header) (pl : Bytes) (s : State) : State :=
  match aggWalk s.params.framing t h pl with
  | .error e => s.raise e
  | .ok r => s.deliver r

/-- STAP-A (R192). -/
def execStapA (h : Header) (pl : Bytes) (s : State) : Host.Outcome State Fault Refusal :=
  .next (aggOp .stapA h pl s)

/-- STAP-B (R193). -/
def execStapB (h : Header) (pl : Bytes) (s : State) : Host.Outcome State Fault Refusal :=
  .next (aggOp .stapB h pl s)

/-- MTAP16 (R194). -/
def execMtap16 (h : Header) (pl : Bytes) (s : State) : Host.Outcome State Fault Refusal :=
  .next (aggOp .mtap16 h pl s)

/-- MTAP24 (R195). -/
def execMtap24 (h : Header) (pl : Bytes) (s : State) : Host.Outcome State Fault Refusal :=
  .next (aggOp .mtap24 h pl s)

end Sys2Proof.Machine
end

