-- ==== Sys2Proof/Machine/Fragmentation.lean ====
section
/-! DEFINITION. The fragmentation units and the reassembly machine (spec/44_fragmentation.md). -/

namespace Sys2Proof.Machine

/-- The new buffer `nb` (R233, R234, R236, R237): a start fragment discards any prior run and seeds a buffer with the
reconstructed header byte; any other fragment extends the open run, or is an orphan. -/
def fuNextBuffer (start : Bool) (prior : FuState) (pl frag : Bytes) : Except Reason Bytes :=
  if start then .ok (reconHeader (u8 pl 0) (u8 pl 1) :: frag)
  else
    match prior with
    | .idle => .error .orphanedFragment
    | .accumulating buf => .ok (buf ++ frag)

/-- What happens with the new buffer: over the cap, the run is lost and the machine idle; at an end, it is emitted and the
machine idle; else it is kept (R233 to R236). -/
def fuFinish (k : FuType) (stop : Bool) (h : Header) (nb : Bytes) (s : State) : State :=
  if capAdmits s.params.fuBufCap nb.length then
    if stop then
      (s.setFu k .idle).deliver { status := .one, header := some h, units := [nb], aggMeta := none }
    else
      (s.setFu k (.accumulating nb)).deliver
        { status := .nothingAbsorbed, header := some h, units := [], aggMeta := none }
  else (s.setFu k .idle).raise .fragmentTooLarge

/-- `Fu(k, H, pl)` with the start and end bits given (R240). -/
def fuStep (k : FuType) (start stop : Bool) (h : Header) (pl : Bytes) (s : State) : State :=
  let hl := fuHeaderLen s.params.framing k
  if pl.length < hl then s.raise .shortFuHeader
  else
    match fuNextBuffer start (s.fu k) pl (slice pl hl pl.length) with
    | .error e => s.raise e
    | .ok nb => fuFinish k stop h nb s

/-- `Fu(k, H, pl)` (R240): the start and end bits are those of the FU header, `pl[1]`. -/
def fuOp (k : FuType) (h : Header) (pl : Bytes) (s : State) : State :=
  fuStep k (fuS (u8 pl 1)) (fuE (u8 pl 1)) h pl s

/-- FU-A (R238). -/
def execFuA (h : Header) (pl : Bytes) (s : State) : Host.Outcome State Fault Refusal := .next (fuOp .A h pl s)

/-- FU-B (R239). -/
def execFuB (h : Header) (pl : Bytes) (s : State) : Host.Outcome State Fault Refusal := .next (fuOp .B h pl s)

/-- FU-A.START (R233). -/
def execFuAStart (h : Header) (pl : Bytes) (s : State) : Host.Outcome State Fault Refusal :=
  .next (fuStep .A true false h pl s)

/-- FU-A.MIDDLE (R234). -/
def execFuAMiddle (h : Header) (pl : Bytes) (s : State) : Host.Outcome State Fault Refusal :=
  .next (fuStep .A false false h pl s)

/-- FU-A.END (R234, R235). -/
def execFuAEnd (h : Header) (pl : Bytes) (s : State) : Host.Outcome State Fault Refusal :=
  .next (fuStep .A false true h pl s)

/-- FU-A.START_END (R236). -/
def execFuAStartEnd (h : Header) (pl : Bytes) (s : State) : Host.Outcome State Fault Refusal :=
  .next (fuStep .A true true h pl s)

/-- FU-B.START (R233). -/
def execFuBStart (h : Header) (pl : Bytes) (s : State) : Host.Outcome State Fault Refusal :=
  .next (fuStep .B true false h pl s)

/-- FU-B.MIDDLE (R234). -/
def execFuBMiddle (h : Header) (pl : Bytes) (s : State) : Host.Outcome State Fault Refusal :=
  .next (fuStep .B false false h pl s)

/-- FU-B.END (R234, R235). -/
def execFuBEnd (h : Header) (pl : Bytes) (s : State) : Host.Outcome State Fault Refusal :=
  .next (fuStep .B false true h pl s)

/-- FU-B.START_END (R236). -/
def execFuBStartEnd (h : Header) (pl : Bytes) (s : State) : Host.Outcome State Fault Refusal :=
  .next (fuStep .B true true h pl s)

end Sys2Proof.Machine
end

