-- ==== Sys2Proof/Machine/NalUnits.lean ====
section
/-! DEFINITION. The reserved types and the single NAL units (spec/42_dispatch.md R174, R175). -/

namespace Sys2Proof.Machine

/-- RESERVED: ignore the packet (R174). -/
def reservedOp (h : Header) (s : State) : State :=
  s.deliver { status := .nothingReserved, header := some h, units := [], aggMeta := none }

/-- SINGLE_NAL: the payload verbatim as one unit (R175). -/
def singleNalOp (h : Header) (pl : Bytes) (s : State) : State :=
  s.deliver { status := .one, header := some h, units := [pl], aggMeta := none }

/-- RESERVED, TYPE 0 (R174). -/
def execReservedType0 (h : Header) (s : State) : Host.Outcome State Fault Refusal := .next (reservedOp h s)

/-- RESERVED, TYPE 30 and 31 (R174). -/
def execReservedType30To31 (h : Header) (s : State) : Host.Outcome State Fault Refusal := .next (reservedOp h s)

/-- SINGLE_NAL, TYPE 1 (R175). -/
def execSingleNalType1 (h : Header) (pl : Bytes) (s : State) : Host.Outcome State Fault Refusal :=
  .next (singleNalOp h pl s)

/-- SINGLE_NAL, TYPE 2 and 3 (R175). -/
def execSingleNalType2To3 (h : Header) (pl : Bytes) (s : State) : Host.Outcome State Fault Refusal :=
  .next (singleNalOp h pl s)

/-- SINGLE_NAL, TYPE 4 to 7 (R175). -/
def execSingleNalType4To7 (h : Header) (pl : Bytes) (s : State) : Host.Outcome State Fault Refusal :=
  .next (singleNalOp h pl s)

/-- SINGLE_NAL, TYPE 8 to 15 (R175). -/
def execSingleNalType8To15 (h : Header) (pl : Bytes) (s : State) : Host.Outcome State Fault Refusal :=
  .next (singleNalOp h pl s)

/-- SINGLE_NAL, TYPE 16 to 23 (R175). -/
def execSingleNalType16To23 (h : Header) (pl : Bytes) (s : State) : Host.Outcome State Fault Refusal :=
  .next (singleNalOp h pl s)

end Sys2Proof.Machine
end

