-- ==== Sys2Proof/Machine/Commands.lean ====
section
/-! DEFINITION. The three commands: RESET (spec/42_dispatch.md R171), PARSE (41_rtp_header.md R130), EXTRACT (R172). -/

namespace Sys2Proof.Machine

/-- RESET: both machines to `Idle`, any open run discarded without a unit; the parameters stay (R171, R301). -/
def execReset (s : State) : Host.Outcome State Fault Refusal :=
  .next (((s.setFu .A .idle).setFu .B .idle).deliver
    { status := .resetDone, header := none, units := [], aggMeta := none })

/-- PARSE: the header record and the payload, which may be empty (R130). -/
def execParse (p : Bytes) (s : State) : Host.Outcome State Fault Refusal :=
  match parsePacket s.params.maxPktLen p with
  | .error e => .next (s.raise e)
  | .ok (h, pl) => .next (s.deliver { status := .header, header := some h, units := [pl], aggMeta := none })

/-- The dispatch of EXTRACT on `t = pl[0][4:0]` (R172, R173). -/
def dispatchNal (h : Header) (pl : Bytes) (s : State) : State :=
  let t := (nalType (u8 pl 0)).toNat
  if t = 0 ∨ t = 30 ∨ t = 31 then reservedOp h s
  else if t ≤ 23 then singleNalOp h pl s
  else if t = 24 then aggOp .stapA h pl s
  else if t = 25 then aggOp .stapB h pl s
  else if t = 26 then aggOp .mtap16 h pl s
  else if t = 27 then aggOp .mtap24 h pl s
  else if t = 28 then fuOp .A h pl s
  else fuOp .B h pl s

/-- EXTRACT, the whole of R172. -/
def execExtract (p : Bytes) (s : State) : Host.Outcome State Fault Refusal :=
  match extractOperands s.params.maxPktLen p with
  | .error e => .next (s.raise e)
  | .ok (h, pl) => .next (dispatchNal h pl s)

end Sys2Proof.Machine
end

