-- ==== Sys2Proof/Machine/Dispatch.lean ====
section
/-! DEFINITION. One arm per instruction, each a direct call of its meaning. -/

namespace Sys2Proof.Machine

def exec (i : Instr) (s : State) : Host.Outcome State Fault Refusal :=
  match i with
  | .reset => Sys2Proof.Machine.execReset s
  | .parse p => Sys2Proof.Machine.execParse p s
  | .extract p => Sys2Proof.Machine.execExtract p s
  | .reservedType0 h _ => Sys2Proof.Machine.execReservedType0 h s
  | .reservedType30To31 h _ => Sys2Proof.Machine.execReservedType30To31 h s
  | .singleNalType1 h pl => Sys2Proof.Machine.execSingleNalType1 h pl s
  | .singleNalType2To3 h pl => Sys2Proof.Machine.execSingleNalType2To3 h pl s
  | .singleNalType4To7 h pl => Sys2Proof.Machine.execSingleNalType4To7 h pl s
  | .singleNalType8To15 h pl => Sys2Proof.Machine.execSingleNalType8To15 h pl s
  | .singleNalType16To23 h pl => Sys2Proof.Machine.execSingleNalType16To23 h pl s
  | .stapA h pl => Sys2Proof.Machine.execStapA h pl s
  | .stapB h pl => Sys2Proof.Machine.execStapB h pl s
  | .mtap16 h pl => Sys2Proof.Machine.execMtap16 h pl s
  | .mtap24 h pl => Sys2Proof.Machine.execMtap24 h pl s
  | .fuA h pl => Sys2Proof.Machine.execFuA h pl s
  | .fuB h pl => Sys2Proof.Machine.execFuB h pl s
  | .fuAStart h pl => Sys2Proof.Machine.execFuAStart h pl s
  | .fuAMiddle h pl => Sys2Proof.Machine.execFuAMiddle h pl s
  | .fuAEnd h pl => Sys2Proof.Machine.execFuAEnd h pl s
  | .fuAStartEnd h pl => Sys2Proof.Machine.execFuAStartEnd h pl s
  | .fuBStart h pl => Sys2Proof.Machine.execFuBStart h pl s
  | .fuBMiddle h pl => Sys2Proof.Machine.execFuBMiddle h pl s
  | .fuBEnd h pl => Sys2Proof.Machine.execFuBEnd h pl s
  | .fuBStartEnd h pl => Sys2Proof.Machine.execFuBStartEnd h pl s

end Sys2Proof.Machine
end

