-- ==== Sys2Proof/Machine/Step.lean ====
section
/-! DEFINITION. One step: take the host's command, decode it, run it (spec/42_dispatch.md R170). -/

namespace Sys2Proof.Machine

/-- One command, atomically (R3, R170). With no command issued there is no transition (93_implementation_defined.md I14;
log 2). An undefined command code is answered with its error result (R92). The host's duties are not checked (log 14). -/
def step (s : State) : Host.Outcome State Fault Refusal :=
  match s.command with
  | none => .fault .noCommand
  | some c =>
    match decode s.params.maxPktLen c with
    | .error _ => .next (illegalCommand s.takeCommand)
    | .ok i => exec i s.takeCommand

/-- The host issues the command that holds the table word `w` (log 4, log 6). -/
def State.withFetchWord (s : State) (nbits w : Nat) : State := { s with command := some (tableWordCommand nbits w) }

end Sys2Proof.Machine
end

