-- ==== Sys2Proof/Safety.lean ====
section
/-! DEFINITION. What a legal state is, and the terms the claims use: the spec's conditions on a packet written as arithmetic on
its bytes, independent of the parser, and the forms of the aggregation and fragmentation instructions. -/

namespace Sys2Proof.Machine

/-! ## Legal states -/

/-- `1 ≤ |buf| ≤ FU_BUF_CAP` of an open run (R33). -/
def fuStateOk (c : BufCap) : FuState → Bool
  | .idle => true
  | .accumulating buf => decide (1 ≤ buf.length) && capAdmits c buf.length

/-- The shape R37 gives a result for its status, and R270 an error result. A NAL unit has at least one byte (R14), which the
payload of PARSE need not have (R136). -/
def resultShapeOk (r : Result) : Bool :=
  match r.status with
  | .resetDone => r.header.isNone && r.units.isEmpty && r.aggMeta.isNone
  | .header => r.header.isSome && r.units.length == 1 && r.aggMeta.isNone
  | .nothingReserved => r.header.isSome && r.units.isEmpty && r.aggMeta.isNone
  | .nothingAbsorbed => r.header.isSome && r.units.isEmpty && r.aggMeta.isNone
  | .one => r.header.isSome && r.units.length == 1 && r.units.all (!·.isEmpty) && r.aggMeta.isNone
  | .seq => r.header.isSome && r.units.all (!·.isEmpty) &&
      match r.aggMeta with
      | none => false
      | some m => m.entries.length == r.units.length
  | .error _ => r.header.isNone && r.units.isEmpty && r.aggMeta.isNone

/-- A legal state: parameters R6 admits, both machines within R33, and a last result of the shape of R37. -/
def State.Inv (s : State) : Bool :=
  s.params.legal && fuStateOk s.params.fuBufCap s.fuA && fuStateOk s.params.fuBufCap s.fuB &&
    match s.result with
    | none => true
    | some r => resultShapeOk r

/-! ## The conditions on a packet, in arithmetic (R93 to R96, R105, R271) -/

/-- CC, the low four bits of byte 0. -/
def ccOf (p : Bytes) : Nat := memRead p 0 1 % 16

/-- X, bit 4 of byte 0. -/
def xOf (p : Bytes) : Nat := memRead p 0 1 / 16 % 2

/-- P, bit 5 of byte 0. -/
def padFlagOf (p : Bytes) : Nat := memRead p 0 1 / 32 % 2

/-- `e = 12 + 4·CC`, the end of the CSRC list (R133). -/
def csrcEnd (p : Bytes) : Nat := 12 + 4 * ccOf p

/-- `HLEN = 12 + 4·CC + (X = 1 ? 4 + 4·EXT_LEN : 0)` (R105). -/
def hlenOf (p : Bytes) : Nat :=
  csrcEnd p + if xOf p = 1 then 4 + 4 * memRead p (csrcEnd p + 2) 2 else 0

/-- The padding count N, the last byte of the packet, when P = 1, else 0 (R136). -/
def padOf (p : Bytes) : Nat := if padFlagOf p = 1 then memRead p (p.length - 1) 1 else 0

/-- The first condition of R271 and R273 that the packet meets before the dispatch, if any. -/
def packetError (maxLen : Nat) (p : Bytes) : Option Reason :=
  if maxLen < p.length then some .packetTooLong
  else if p.length < 12 then some .shortFixedHeader
  else if p.length < csrcEnd p then some .shortCsrcList
  else if xOf p = 1 ∧ p.length < csrcEnd p + 4 then some .shortExtHeader
  else if xOf p = 1 ∧ p.length < hlenOf p then some .shortExtData
  else if padFlagOf p = 1 ∧ (p.length = hlenOf p ∨ p.length - hlenOf p < padOf p) then some .paddingOverrun
  else none

/-! ## Forms of the instructions -/

/-- The aggregation instruction of each type. -/
def aggInstr : AggType → Header → Bytes → Instr
  | .stapA, h, pl => .stapA h pl
  | .stapB, h, pl => .stapB h pl
  | .mtap16, h, pl => .mtap16 h pl
  | .mtap24, h, pl => .mtap24 h pl

/-- The instruction of the `nal8` row of each fragmentation type. -/
def fuWhole : FuType → Header → Bytes → Instr
  | .A, h, pl => .fuA h pl
  | .B, h, pl => .fuB h pl

/-- The instruction of the `fu16` row of a type, a start bit and an end bit (R99). -/
def fuSub : FuType → Bool → Bool → Header → Bytes → Instr
  | .A, true, false, h, pl => .fuAStart h pl
  | .A, false, false, h, pl => .fuAMiddle h pl
  | .A, false, true, h, pl => .fuAEnd h pl
  | .A, true, true, h, pl => .fuAStartEnd h pl
  | .B, true, false, h, pl => .fuBStart h pl
  | .B, false, false, h, pl => .fuBMiddle h pl
  | .B, false, true, h, pl => .fuBEnd h pl
  | .B, true, true, h, pl => .fuBStartEnd h pl

/-- `i` is the fragment `pl` of type `k` with these start and end bits: the `fu16` row, or the `nal8` row of the type on a
payload whose FU header has them. -/
def isFragment (i : Instr) (k : FuType) (start stop : Bool) (h : Header) (pl : Bytes) : Prop :=
  i = fuSub k start stop h pl ∨ (i = fuWhole k h pl ∧ fuS (u8 pl 1) = start ∧ fuE (u8 pl 1) = stop)

/-- TYPE 28 or 29, the fragmentation type of an FU payload (R98). -/
def fuTypeOfPayload (pl : Bytes) : Option FuType :=
  if (nalType (u8 pl 0)).toNat = 28 then some .A
  else if (nalType (u8 pl 0)).toNat = 29 then some .B
  else none

/-- The fragmentation type of an instruction's own packet, if it is a fragment (R41). -/
def fuTypeOf (maxLen : Nat) : Instr → Option FuType
  | .reset => none
  | .parse _ => none
  | .extract p =>
    match extractOperands maxLen p with
    | .error _ => none
    | .ok (_, pl) => fuTypeOfPayload pl
  | .reservedType0 _ _ => none
  | .reservedType30To31 _ _ => none
  | .singleNalType1 _ _ => none
  | .singleNalType2To3 _ _ => none
  | .singleNalType4To7 _ _ => none
  | .singleNalType8To15 _ _ => none
  | .singleNalType16To23 _ _ => none
  | .stapA _ _ => none
  | .stapB _ _ => none
  | .mtap16 _ _ => none
  | .mtap24 _ _ => none
  | .fuA _ _ => some .A
  | .fuB _ _ => some .B
  | .fuAStart _ _ => some .A
  | .fuAMiddle _ _ => some .A
  | .fuAEnd _ _ => some .A
  | .fuAStartEnd _ _ => some .A
  | .fuBStart _ _ => some .B
  | .fuBMiddle _ _ => some .B
  | .fuBEnd _ _ => some .B
  | .fuBStartEnd _ _ => some .B

/-- The other machine. -/
def FuType.other : FuType → FuType
  | .A => .B
  | .B => .A

/-- Instructions one after the other, stopping at the first fault or refusal. -/
def execAll : List Instr → State → Host.Outcome State Fault Refusal
  | [], s => .next s
  | i :: is, s =>
    match exec i s with
    | .next t => execAll is t
    | .fault r => .fault r
    | .refused r => .refused r

/-! ## Fragmenting a NAL unit (R238's round trip) -/

/-- The FU indicator of a NAL unit with first byte `nal`: its F and NRI bits, and TYPE 28 or 29 (R99). -/
def fuIndicator (k : FuType) (nal : Byte) : Byte :=
  (nal &&& (0xE0 : Byte)) ||| match k with
    | .A => 28#8
    | .B => 29#8

/-- The FU header with these start and end bits and the type of `nal`, its R bit 0 (R99, R108). -/
def fuHeaderByte (start stop : Bool) (nal : Byte) : Byte :=
  BitVec.ofBool start ++ BitVec.ofBool stop ++ 0#1 ++ nalType nal

/-- One fragment's payload; `skip` are the bytes between the FU header and the fragment (R100, R101). -/
def fuPayload (k : FuType) (nal : Byte) (start stop : Bool) (skip frag : Bytes) : Bytes :=
  [fuIndicator k nal, fuHeaderByte start stop nal] ++ skip ++ frag

end Sys2Proof.Machine
end

