-- ==== Sys2Proof/Certificates/Slice0/Obligations.lean ====
section
/-! DEFINITION. The statements for the provers. Each docstring names the rules of spec/ it formalises. -/

open Sys2Proof Sys2Proof.Machine

/-! ## Reset and the step -/

/-- R300, R44: both machines are idle at power-on. -/
def Obligations.PowerOnMachinesAreIdle : Prop :=
  State.reset.fuA = .idle ∧ State.reset.fuB = .idle

/-- Log 1, 2, 3 (DESIGN CHOICE): what reset holds beside the machines, the model's choice and no rule of the spec. -/
def Obligations.PowerOnPortsAreEmpty : Prop :=
  State.reset.command = none ∧ State.reset.result = none ∧ step State.reset = .fault .noCommand ∧
    State.reset.params = { maxPktLen := 1500, fuBufCap := .inf, framing := .doc }

/-- Legal states (R6, R33, R37): the reset state is one. -/
def Obligations.ResetStateIsLegal : Prop := State.reset.Inv = true

/-- R33, R37, R270, R6: every step from a legal state gives a legal state. -/
def Obligations.StepKeepsLegality : Prop :=
  ∀ s t : State, s.Inv = true → step s = .next t → t.Inv = true

/-- R170, log 5: when the issued command decodes to an instruction, the step is that instruction, run with the command
taken. -/
def Obligations.StepRunsDecodedInstruction : Prop :=
  ∀ (s : State) (c : Command) (i : Instr), s.command = some c → decode s.params.maxPktLen c = .ok i →
    step s = exec i { s with command := none }

/-- R170: the step is the command its code names, EXTRACT whole, whichever row the decoder refined it to. -/
def Obligations.StepIsTheCommandItsCodeNames : Prop :=
  ∀ (s : State) (c : Command), s.command = some c →
    step s =
      if c.code = 0x00#8 then exec .reset { s with command := none }
      else if c.code = 0x01#8 then exec (.parse c.packet) { s with command := none }
      else if c.code = 0x02#8 then exec (.extract c.packet) { s with command := none }
      else .next { s with command := none, result := some (errorResult .illegalCommand) }

/-- R92 (the spec's decision D2): an undefined code is answered with ILLEGAL_COMMAND, 0xA0; the packet is not read and no
state changes. -/
def Obligations.IllegalCommandChangesNothing : Prop :=
  ∀ (s : State) (c : Command), s.command = some c → 3 ≤ c.code.toNat →
    step s = .next { s with
      command := none
      result := some { status := .error .illegalCommand, header := none, units := [], aggMeta := none } } ∧
    statusCode (.error .illegalCommand) = 0xA0#8

/-- R274, I14 (log 2): the step stops only when no command is issued; a command always ends in one result. -/
def Obligations.EveryCommandEndsInOneResult : Prop :=
  ∀ s : State,
    (s.command = none → step s = .fault .noCommand) ∧
    (∀ c, s.command = some c →
      ∃ t r, step s = .next t ∧ t.command = none ∧ t.result = some r ∧ t.params = s.params)

/-- R6, R37, R274: every instruction answers a next state from every state, with a result, and changes neither the
parameters nor the command port. -/
def Obligations.EveryInstructionCompletes : Prop :=
  ∀ (i : Instr) (s : State),
    ∃ t r, exec i s = .next t ∧ t.result = some r ∧ t.params = s.params ∧ t.command = s.command

/-- R171 (the spec's decision D24): RESET. -/
def Obligations.ResetIdlesBothMachines : Prop :=
  ∀ s : State,
    exec .reset s = .next { s with
      fuA := .idle
      fuB := .idle
      result := some { status := .resetDone, header := none, units := [], aggMeta := none } } ∧
    statusCode .resetDone = 0x00#8

/-- R171, R300 (the spec's own inference in R301): after RESET, whatever the machines held and whatever the last result was,
every later sequence of instructions goes the same way; the parameters are what they were. -/
def Obligations.ResetErasesHistory : Prop :=
  ∀ (s s' : State) (is : List Instr), s.params = s'.params → s.command = s'.command →
    execAll (.reset :: is) s = execAll (.reset :: is) s' ∧
    ∃ t, exec .reset s = .next t ∧ t.params = s.params ∧ t.fuA = .idle ∧ t.fuB = .idle

/-! ## Encoding -/

/-- R91 to R101: decoding the command of a well-formed instruction gives it back, every field of the header record and every
byte of the payload included (log 7). -/
def Obligations.DecodeOfEncodeIsTheInstruction : Prop :=
  ∀ (maxLen : Nat) (i : Instr), i.wellFormed maxLen = true → decode maxLen (encode i) = .ok i

/-- R93 to R96, R135, R136: the parser reads back a header record from its bytes, with any payload and any padding bytes
before the count. -/
def Obligations.ParserReadsBackTheHeader : Prop :=
  ∀ (maxLen : Nat) (h : Header) (pl trail : Bytes), h.consistent maxLen pl = true →
    trail.length = h.pad.toNat - 1 →
    parsePacket maxLen (headerBytes h ++ pl ++ (if h.pad = 0#8 then [] else trail ++ [h.pad])) = .ok (h, pl)

/-- R36, R96, R98, R99, R136, the other direction: what the decoder gives is well formed. -/
def Obligations.DecodedInstructionsAreWellFormed : Prop :=
  ∀ (maxLen : Nat) (c : Command) (i : Instr), decode maxLen c = .ok i → i.wellFormed maxLen = true

/-- R93 to R95, R105: the header record and the payload hold every byte of the packet before its padding: written out again
they are those bytes. -/
def Obligations.HeaderRecordLosesNothing : Prop :=
  ∀ (maxLen : Nat) (p : Bytes) (h : Header) (pl : Bytes), parsePacket maxLen p = .ok (h, pl) →
    headerBytes h ++ pl = p.take h.plEnd

/-- R98, R173: the dispatch map over the 32 values of TYPE; bits 7:5 never matter. -/
def Obligations.DispatchMapByType : Prop :=
  ∀ (h : Header) (pl : Bytes),
    (∀ t : Nat, memRead pl 0 1 % 32 = t →
      (t = 0 → decodeNal h pl = .reservedType0 h pl) ∧
      (t = 1 → decodeNal h pl = .singleNalType1 h pl) ∧
      (2 ≤ t → t ≤ 3 → decodeNal h pl = .singleNalType2To3 h pl) ∧
      (4 ≤ t → t ≤ 7 → decodeNal h pl = .singleNalType4To7 h pl) ∧
      (8 ≤ t → t ≤ 15 → decodeNal h pl = .singleNalType8To15 h pl) ∧
      (16 ≤ t → t ≤ 23 → decodeNal h pl = .singleNalType16To23 h pl) ∧
      (t = 24 → decodeNal h pl = .stapA h pl) ∧
      (t = 25 → decodeNal h pl = .stapB h pl) ∧
      (t = 26 → decodeNal h pl = .mtap16 h pl) ∧
      (t = 27 → decodeNal h pl = .mtap24 h pl) ∧
      (t = 28 → decodeNal h pl = decodeFuA h pl) ∧
      (t = 29 → decodeNal h pl = decodeFuB h pl) ∧
      (30 ≤ t → decodeNal h pl = .reservedType30To31 h pl))

/-- R99: the start and end bits of the second byte select the FU sub-operation; the R bit and the type field do not
matter. -/
def Obligations.FuBitsSelectTheSubOperation : Prop :=
  ∀ (h : Header) (pl : Bytes), 2 ≤ pl.length → ∀ start stop : Bool,
    memRead pl 1 1 / 128 % 2 = start.toNat → memRead pl 1 1 / 64 % 2 = stop.toNat →
    (memRead pl 0 1 % 32 = 28 → decodeFuA h pl = fuSub .A start stop h pl) ∧
    (memRead pl 0 1 % 32 = 29 → decodeFuB h pl = fuSub .B start stop h pl)

/-- R91, R98, R99: a few words written out from the tables. -/
def Obligations.WordsOfTheTablesDecode : Prop :=
  decode 1500 ⟨0x00, []⟩ = .ok .reset ∧
  decode 1500 ⟨0x01, [0x80]⟩ = .ok (.parse [0x80]) ∧
  (∃ h, decode 1500 ⟨0x02, [0x80, 0x60, 0, 1, 0, 0, 0, 0x64, 0x12, 0x34, 0x56, 0x78, 0x65, 0xAA]⟩ =
    .ok (.singleNalType4To7 h [0x65, 0xAA])) ∧
  (∃ h, decode 1500 ⟨0x02, [0x80, 0x60, 0, 1, 0, 0, 0, 0x64, 0x12, 0x34, 0x56, 0x78, 0x78]⟩ =
    .ok (.stapA h [0x78])) ∧
  (∃ h, decode 1500 ⟨0x02, [0x80, 0x60, 0, 1, 0, 0, 0, 0x64, 0x12, 0x34, 0x56, 0x78, 0x7C, 0x85, 0x11]⟩ =
    .ok (.fuAStart h [0x7C, 0x85, 0x11])) ∧
  decode 1500 ⟨0x03, []⟩ = .error (.illegalCommand 0x03)

/-! ## The header parser -/

/-- R131 (the spec's decisions D4, D5): the two length bounds, first and in this order, for PARSE and for EXTRACT. -/
def Obligations.LengthBoundsAreCheckedFirst : Prop :=
  ∀ (p : Bytes) (s : State),
    (s.params.maxPktLen < p.length →
      exec (.parse p) s = .next { s with result := some (errorResult .packetTooLong) } ∧
      exec (.extract p) s = .next { s with result := some (errorResult .packetTooLong) }) ∧
    (p.length ≤ s.params.maxPktLen → p.length < 12 →
      exec (.parse p) s = .next { s with result := some (errorResult .shortFixedHeader) } ∧
      exec (.extract p) s = .next { s with result := some (errorResult .shortFixedHeader) })

/-- R271, R273 item 2 and 3: the first condition the packet meets is the one reported, nothing else changes, and PARSE
succeeds when it meets none. -/
def Obligations.FirstPacketErrorIsReported : Prop :=
  ∀ (p : Bytes) (s : State),
    (∀ e, packetError s.params.maxPktLen p = some e →
      exec (.parse p) s = .next { s with result := some (errorResult e) } ∧
      exec (.extract p) s = .next { s with result := some (errorResult e) }) ∧
    (packetError s.params.maxPktLen p = none →
      (∃ h pl, exec (.parse p) s =
        .next { s with result := some { status := .header, header := some h, units := [pl], aggMeta := none } }) ∧
      (hlenOf p + padOf p = p.length →
        exec (.extract p) s = .next { s with result := some (errorResult .emptyPayload) }))

/-- R93, R94, R95, R130, R134, R136: on a packet that meets no error condition PARSE answers HEADER with every field as the
layouts place it, in arithmetic on the packet's bytes, and the payload `p[HLEN .. n − PAD)`. -/
def Obligations.ParseAnswersTheHeaderFields : Prop :=
  ∀ (p : Bytes) (s : State), packetError s.params.maxPktLen p = none →
    ∃ h : Header,
      exec (.parse p) s = .next { s with
        result := some ⟨.header, some h, [(p.drop (hlenOf p)).take (p.length - padOf p - hlenOf p)], none⟩ } ∧
      h.v.toNat = memRead p 0 1 / 64 ∧ h.p.toNat = memRead p 0 1 / 32 % 2 ∧
      h.x.toNat = memRead p 0 1 / 16 % 2 ∧ h.cc.toNat = memRead p 0 1 % 16 ∧
      h.m.toNat = memRead p 1 1 / 128 ∧ h.pt.toNat = memRead p 1 1 % 128 ∧
      h.seq.toNat = memRead p 2 2 ∧ h.ts.toNat = memRead p 4 4 ∧ h.ssrc.toNat = memRead p 8 4 ∧
      h.csrc.length = ccOf p ∧
      (∀ i, i < ccOf p → (h.csrc.map BitVec.toNat)[i]? = some (memRead p (12 + 4 * i) 4)) ∧
      (xOf p = 0 → h.ext = none) ∧
      (xOf p = 1 → ∃ x, h.ext = some x ∧ x.profile.toNat = memRead p (csrcEnd p) 2 ∧
        x.len.toNat = memRead p (csrcEnd p + 2) 2 ∧
        x.data = (p.drop (csrcEnd p + 4)).take (4 * memRead p (csrcEnd p + 2) 2)) ∧
      h.hlen = hlenOf p ∧ h.pad.toNat = padOf p ∧ h.plEnd = p.length - padOf p

/-- R137: PARSE is a function of the packet and MAX_PKT_LEN alone. -/
def Obligations.ParserIgnoresTheMachines : Prop :=
  ∀ (p : Bytes) (s s' : State), s.params.maxPktLen = s'.params.maxPktLen →
    ∃ r, exec (.parse p) s = .next { s with result := some r } ∧
      exec (.parse p) s' = .next { s' with result := some r }

/-- R62, R69, R136: the payload is the range `HLEN .. PL_END` of the packet, inside it, with PAD bytes after it. -/
def Obligations.PayloadIsARangeOfThePacket : Prop :=
  ∀ (maxLen : Nat) (p : Bytes) (h : Header) (pl : Bytes), parsePacket maxLen p = .ok (h, pl) →
    12 ≤ h.hlen ∧ h.hlen ≤ h.plEnd ∧ h.plEnd + h.pad.toNat = p.length ∧ p.length ≤ maxLen ∧
    pl.length = h.plEnd - h.hlen ∧ ∀ i, i < pl.length → pl[i]? = p[h.hlen + i]?

/-- R105, R36 (the bound is the spec's own inference, R7): HLEN is what R105 computes from the record's own fields, at most
262216. -/
def Obligations.HeaderLengthIsBounded : Prop :=
  ∀ (maxLen : Nat) (p : Bytes) (h : Header) (pl : Bytes), parsePacket maxLen p = .ok (h, pl) →
    h.hlen = 12 + 4 * h.csrc.length + (match h.ext with | none => 0 | some x => 4 + x.data.length) ∧
    h.hlen ≤ 262216 ∧ h.consistent maxLen pl = true

/-! ## Dispatch, reserved and single NAL units -/

/-- R172: EXTRACT is the instruction its packet's payload selects. -/
def Obligations.ExtractRunsTheSelectedRow : Prop :=
  ∀ (p : Bytes) (h : Header) (pl : Bytes) (s : State), extractOperands s.params.maxPktLen p = .ok (h, pl) →
    ∃ t, exec (.extract p) s = .next t ∧ exec (decodeNal h pl) s = .next t

/-- R172, R174, R175 (D00's identity property): EXTRACT of a packet whose payload has TYPE 1 to 23 answers ONE with the
payload unchanged, and of TYPE 0, 30 or 31 answers nothing. -/
def Obligations.ExtractOfSingleNalIsIdentity : Prop :=
  ∀ (p : Bytes) (s : State), packetError s.params.maxPktLen p = none → hlenOf p + padOf p < p.length →
    ∃ h : Header, h.hlen = hlenOf p ∧ h.ts.toNat = memRead p 4 4 ∧ h.m.toNat = memRead p 1 1 / 128 ∧
      (1 ≤ memRead p (hlenOf p) 1 % 32 → memRead p (hlenOf p) 1 % 32 ≤ 23 →
        exec (.extract p) s = .next { s with
          result := some ⟨.one, some h, [(p.drop (hlenOf p)).take (p.length - padOf p - hlenOf p)], none⟩ }) ∧
      (memRead p (hlenOf p) 1 % 32 = 0 ∨ 30 ≤ memRead p (hlenOf p) 1 % 32 →
        exec (.extract p) s = .next { s with
          result := some { status := .nothingReserved, header := some h, units := [], aggMeta := none } })

/-- R174: RESERVED, both rows: NOTHING_RESERVED, no unit, nothing else changed. -/
def Obligations.ReservedTypesAnswerNothing : Prop :=
  ∀ (h : Header) (pl : Bytes) (s : State),
    exec (.reservedType0 h pl) s = .next { s with
      result := some { status := .nothingReserved, header := some h, units := [], aggMeta := none } } ∧
    exec (.reservedType30To31 h pl) s = .next { s with
      result := some { status := .nothingReserved, header := some h, units := [], aggMeta := none } }

/-- R175: SINGLE_NAL, all five rows: ONE with the payload verbatim, nothing else changed. -/
def Obligations.SingleNalIsEmittedVerbatim : Prop :=
  ∀ (h : Header) (pl : Bytes) (s t : State),
    t = { s with result := some { status := .one, header := some h, units := [pl], aggMeta := none } } →
    exec (.singleNalType1 h pl) s = .next t ∧ exec (.singleNalType2To3 h pl) s = .next t ∧
    exec (.singleNalType4To7 h pl) s = .next t ∧ exec (.singleNalType8To15 h pl) s = .next t ∧
    exec (.singleNalType16To23 h pl) s = .next t

/-- R176 (the spec's decision D20): no EXTRACT but of TYPE 28 or 29, no EXTRACT that raises before dispatch and no PARSE
touches a machine; each completes, whether it succeeds or raises. -/
def Obligations.NonFragmentsLeaveTheMachines : Prop :=
  ∀ (i : Instr) (s : State), i ≠ .reset → fuTypeOf s.params.maxPktLen i = none →
    ∃ r, exec i s = .next { s with result := some r }

/-! ## Aggregation packets -/

/-- R192 (D00's property): from a STAP-A payload built of `len16(u) + u` for units of 1 to 65535 bytes, exactly those units
come back, in order, under both framings; nothing else changes. -/
def Obligations.StapAGivesBackItsUnits : Prop :=
  ∀ (h : Header) (b : Byte) (us : List Bytes) (s : State), (∀ u ∈ us, 1 ≤ u.length ∧ u.length ≤ 65535) →
    exec (.stapA h ([b] ++ us.flatMap fun u => len16 u.length ++ u)) s = .next { s with
      result := some ⟨.seq, some h, us, some ⟨none, none,
          us.map fun _ => ⟨none, none⟩⟩⟩ }

/-- R193, R102, R103: a STAP-B payload gives back its units, its packet fields and its entries' DONs, which RFC6184 counts
up from the packet's (log 11, log 13). -/
def Obligations.StapBGivesBackItsUnits : Prop :=
  ∀ (h : Header) (b : Byte) (pdon ptso : BitVec 16) (es : List AggEntry) (s : State),
    (∀ e ∈ es, 1 ≤ e.unit.length ∧ e.unit.length ≤ 65535) →
    (s.params.framing = .doc →
      exec (.stapB h (encodeAgg .doc .stapB b pdon ptso es)) s = .next { s with
        result := some ⟨.seq, some h, es.map AggEntry.unit, some ⟨some pdon, some ptso,
          es.map fun e => ⟨some e.don, some (ptso.setWidth 24)⟩⟩⟩ }) ∧
    (s.params.framing = .rfc6184 →
      exec (.stapB h (encodeAgg .rfc6184 .stapB b pdon ptso es)) s = .next { s with
        result := some ⟨.seq, some h, es.map AggEntry.unit, some ⟨some pdon, none,
          es.mapIdx fun i _ => ⟨some (BitVec.ofNat 16 (pdon.toNat + i)), none⟩⟩⟩ })

/-- R194, R102, R103: an MTAP16 payload gives back its units, DONs and 16-bit offsets (log 11, log 13). -/
def Obligations.MtapSixteenGivesBackItsUnits : Prop :=
  ∀ (h : Header) (b : Byte) (pdon ptso : BitVec 16) (es : List AggEntry) (s : State),
    (∀ e ∈ es, 1 ≤ e.unit.length ∧ e.tso.toNat < 65536) →
    (s.params.framing = .doc → (∀ e ∈ es, e.unit.length ≤ 65535) →
      exec (.mtap16 h (encodeAgg .doc .mtap16 b pdon ptso es)) s = .next { s with
        result := some ⟨.seq, some h, es.map AggEntry.unit, some ⟨none, none,
          es.map fun e => ⟨some e.don, some e.tso⟩⟩⟩ }) ∧
    (s.params.framing = .rfc6184 → (∀ e ∈ es, e.unit.length + 3 ≤ 65535) →
      exec (.mtap16 h (encodeAgg .rfc6184 .mtap16 b pdon ptso es)) s = .next { s with
        result := some ⟨.seq, some h, es.map AggEntry.unit, some ⟨some pdon, none,
          es.map fun e => ⟨some (BitVec.ofNat 16 (pdon.toNat + e.dond.toNat)), some e.tso⟩⟩⟩ })

/-- R195, R102, R103: an MTAP24 payload gives back its units, DONs and 24-bit offsets (log 13). -/
def Obligations.MtapTwentyFourGivesBackItsUnits : Prop :=
  ∀ (h : Header) (b : Byte) (pdon ptso : BitVec 16) (es : List AggEntry) (s : State),
    (∀ e ∈ es, 1 ≤ e.unit.length) →
    (s.params.framing = .doc → (∀ e ∈ es, e.unit.length ≤ 65535) →
      exec (.mtap24 h (encodeAgg .doc .mtap24 b pdon ptso es)) s = .next { s with
        result := some ⟨.seq, some h, es.map AggEntry.unit, some ⟨none, none,
          es.map fun e => ⟨some e.don, some e.tso⟩⟩⟩ }) ∧
    (s.params.framing = .rfc6184 → (∀ e ∈ es, e.unit.length + 4 ≤ 65535) →
      exec (.mtap24 h (encodeAgg .rfc6184 .mtap24 b pdon ptso es)) s = .next { s with
        result := some ⟨.seq, some h, es.map AggEntry.unit, some ⟨some pdon, none,
          es.map fun e => ⟨some (BitVec.ofNat 16 (pdon.toNat + e.dond.toNat)), some e.tso⟩⟩⟩ })

/-- R190, R102, R103, the other direction: a payload whose walk succeeds is an encoding of non-empty units, and those are
the units it emits. -/
def Obligations.AggSuccessMeansAnEncoding : Prop :=
  ∀ (t : AggType) (h : Header) (pl : Bytes) (s s' : State) (r : Result),
    exec (aggInstr t h pl) s = .next s' → s'.result = some r → r.status = .seq →
    ∃ pdon ptso es, pl = encodeAgg s.params.framing t (u8 pl 0) pdon ptso es ∧
      r.units = es.map AggEntry.unit ∧ ∀ e ∈ es, 1 ≤ e.unit.length

/-- R190 (R196 is the spec's own inference from it): a successful walk consumes the payload exactly. -/
def Obligations.AggWalkConsumesThePayload : Prop :=
  ∀ (t : AggType) (h : Header) (pl : Bytes) (s s' : State) (r : Result),
    exec (aggInstr t h pl) s = .next s' → s'.result = some r → r.status = .seq →
    aggStart s.params.framing t + (r.units.map fun u => aggHdr s.params.framing t + u.length).sum = pl.length

/-- R191: an aggregation that raises emits nothing and changes no state. -/
def Obligations.AggErrorsEmitNothing : Prop :=
  ∀ (t : AggType) (h : Header) (pl : Bytes) (s s' : State) (r : Result) (e : Reason),
    exec (aggInstr t h pl) s = .next s' → s'.result = some r → r.status = .error e →
    s' = { s with result := some { status := .error e, header := none, units := [], aggMeta := none } }

/-- R190, R273 item 4: what raises after any number of good entries, and which of the reasons it raises. `bad` is what
follows the good entries: too few bytes for a prefix, a unit of no bytes, or a unit longer than what is left. -/
def Obligations.AggRaisesAtTheFirstBadEntry : Prop :=
  ∀ (f : Framing) (t : AggType) (h : Header) (b : Byte) (pdon ptso : BitVec 16) (es : List AggEntry) (bad : Bytes)
    (s : State), s.params.framing = f →
    (∀ e ∈ es, 1 ≤ e.unit.length ∧ e.unit.length + (aggHdr f t - aggPfx f t) ≤ 65535) →
    (1 ≤ bad.length → bad.length < aggPfx f t →
      exec (aggInstr t h (encodeAgg f t b pdon ptso es ++ bad)) s =
        .next { s with result := some (errorResult (if es = [] then .truncatedPrefix else .trailingBytes)) }) ∧
    (aggPfx f t ≤ bad.length → entryLen f t bad 0 = 0 →
      exec (aggInstr t h (encodeAgg f t b pdon ptso es ++ bad)) s =
        .next { s with result := some (errorResult .emptyEntry) }) ∧
    (aggPfx f t ≤ bad.length → 1 ≤ entryLen f t bad 0 → bad.length < aggHdr f t + entryLen f t bad 0 →
      exec (aggInstr t h (encodeAgg f t b pdon ptso es ++ bad)) s =
        .next { s with result := some (errorResult .entryOverrun) })

/-- R190, R193 to R195: an aggregation payload shorter than START raises SHORT_AGG_HEADER. -/
def Obligations.ShortAggregationRaises : Prop :=
  ∀ (t : AggType) (h : Header) (pl : Bytes) (s : State), pl.length < aggStart s.params.framing t →
    exec (aggInstr t h pl) s = .next { s with result := some (errorResult .shortAggHeader) }

/-! ## Fragmentation units -/

/-- R233 (the cap is the spec's decision D19): a start fragment discards the prior run, whatever it was, and opens a new
one; over the cap it raises and leaves the machine idle. -/
def Obligations.StartFragmentOpensARun : Prop :=
  ∀ (i : Instr) (k : FuType) (h : Header) (pl : Bytes) (s : State), isFragment i k true false h pl →
    fuHeaderLen s.params.framing k ≤ pl.length →
    ∀ nb, nb = reconHeader (u8 pl 0) (u8 pl 1) :: pl.drop (fuHeaderLen s.params.framing k) →
    exec i s =
      if capAdmits s.params.fuBufCap nb.length then
        .next { s.setFu k (.accumulating nb) with
          result := some { status := .nothingAbsorbed, header := some h, units := [], aggMeta := none } }
      else .next { s.setFu k .idle with result := some (errorResult .fragmentTooLarge) }

/-- R234, R235: a middle or end fragment extends the open run; an end fragment emits it whole and idles the machine; over
the cap the run is lost. -/
def Obligations.ContinuedRunGrowsAndCloses : Prop :=
  ∀ (i : Instr) (k : FuType) (stop : Bool) (h : Header) (pl : Bytes) (s : State) (buf : Bytes),
    isFragment i k false stop h pl →
    fuHeaderLen s.params.framing k ≤ pl.length → s.fu k = .accumulating buf →
    ∀ nb, nb = buf ++ pl.drop (fuHeaderLen s.params.framing k) →
    exec i s =
      if capAdmits s.params.fuBufCap nb.length then
        if stop then
          .next { s.setFu k .idle with
            result := some { status := .one, header := some h, units := [nb], aggMeta := none } }
        else
          .next { s.setFu k (.accumulating nb) with
            result := some { status := .nothingAbsorbed, header := some h, units := [], aggMeta := none } }
      else .next { s.setFu k .idle with result := some (errorResult .fragmentTooLarge) }

/-- R236 (the spec's decision D16): a fragment with both bits emits its unit at once and leaves the machine idle. -/
def Obligations.StartEndFragmentEmitsAtOnce : Prop :=
  ∀ (i : Instr) (k : FuType) (h : Header) (pl : Bytes) (s : State), isFragment i k true true h pl →
    fuHeaderLen s.params.framing k ≤ pl.length →
    ∀ nb, nb = reconHeader (u8 pl 0) (u8 pl 1) :: pl.drop (fuHeaderLen s.params.framing k) →
    exec i s =
      if capAdmits s.params.fuBufCap nb.length then
        .next { s.setFu k .idle with
          result := some { status := .one, header := some h, units := [nb], aggMeta := none } }
      else .next { s.setFu k .idle with result := some (errorResult .fragmentTooLarge) }

/-- R237 (the spec's decision D18): a middle or end fragment of an idle machine is an orphan, code 0x90; nothing changes. -/
def Obligations.OrphanedFragmentRaises : Prop :=
  ∀ (i : Instr) (k : FuType) (stop : Bool) (h : Header) (pl : Bytes) (s : State),
    isFragment i k false stop h pl → fuHeaderLen s.params.framing k ≤ pl.length → s.fu k = .idle →
    exec i s = .next { s with
      result := some { status := .error .orphanedFragment, header := none, units := [], aggMeta := none } } ∧
    statusCode (.error .orphanedFragment) = 0x90#8

/-- R231: a payload shorter than FUHL(k) raises SHORT_FU_HEADER, whatever the machine holds; FUHL is 2 for FU-A, 5 for FU-B
under DOC and 4 under RFC6184 (log 13). -/
def Obligations.ShortFragmentRaises : Prop :=
  ∀ (i : Instr) (k : FuType) (start stop : Bool) (h : Header) (pl : Bytes) (s : State),
    isFragment i k start stop h pl →
    pl.length < (match k, s.params.framing with | .A, _ => 2 | .B, .doc => 5 | .B, .rfc6184 => 4) →
    exec i s = .next { s with result := some (errorResult .shortFuHeader) }

/-- R232: the reconstructed header byte takes bits 7:5 from the indicator and bits 4:0 from the FU header. -/
def Obligations.ReconstructedHeaderBits : Prop :=
  ∀ ind fuHdr : Byte,
    (reconHeader ind fuHdr).toNat = ind.toNat / 32 * 32 + fuHdr.toNat % 32

/-- R238, R239 (D00's round trip): a NAL unit cut into a start fragment, any number of middle fragments and an end fragment
of one type comes back byte for byte, from any state, when the cap admits it; the machine ends idle, the other is untouched.
-/
def Obligations.FragmentedUnitIsReassembled : Prop :=
  ∀ (k : FuType) (s : State) (nal : Byte) (h0 h1 : Header) (skip0 skip1 first last : Bytes)
    (mids : List (Header × Bytes × Bytes)) (body : Bytes),
    skip0.length + 2 = fuHeaderLen s.params.framing k → skip1.length + 2 = fuHeaderLen s.params.framing k →
    (∀ m ∈ mids, m.2.1.length + 2 = fuHeaderLen s.params.framing k) →
    body = first ++ (mids.flatMap fun m => m.2.2) ++ last →
    capAdmits s.params.fuBufCap (body.length + 1) = true →
    execAll
      ([fuWhole k h0 (fuPayload k nal true false skip0 first)] ++
        (mids.map fun m => fuWhole k m.1 (fuPayload k nal false false m.2.1 m.2.2)) ++
        [fuWhole k h1 (fuPayload k nal false true skip1 last)]) s =
      .next { s.setFu k .idle with
        result := some { status := .one, header := some h1, units := [nal :: body], aggMeta := none } }

/-- R41: an instruction changes at most the machine of its own packet's fragmentation type; RESET alone changes others. -/
def Obligations.OnlyTheOwnMachineChanges : Prop :=
  ∀ (i : Instr) (s t : State) (k : FuType), exec i s = .next t → t.fu k ≠ s.fu k →
    i = .reset ∨ fuTypeOf s.params.maxPktLen i = some k

/-- R41: what the other machine holds decides nothing: two states that differ only in it give the same result and the same
own machine. -/
def Obligations.TheOtherMachineIsNotRead : Prop :=
  ∀ (i : Instr) (s : State) (k : FuType) (v : FuState), fuTypeOf s.params.maxPktLen i ≠ some k →
    ∃ t t', exec i s = .next t ∧ exec i (s.setFu k v) = .next t' ∧
      t.result = t'.result ∧ t.fu k.other = t'.fu k.other

/-! ## Errors -/

/-- R272: a command that ends in an error leaves both machines as they were, but for FRAGMENT_TOO_LARGE, which idles the
fragment's own machine and leaves the other; the result carries nothing else. -/
def Obligations.ErrorsArePrecise : Prop :=
  ∀ (s t : State) (c : Command) (r : Result) (e : Reason),
    s.command = some c → step s = .next t → t.result = some r → r.status = .error e →
    r = { status := .error e, header := none, units := [], aggMeta := none } ∧
    (e ≠ .fragmentTooLarge → t.fuA = s.fuA ∧ t.fuB = s.fuB) ∧
    (e = .fragmentTooLarge → ∃ i k, decode s.params.maxPktLen c = .ok i ∧ fuTypeOf s.params.maxPktLen i = some k ∧
      t.fu k = .idle ∧ t.fu k.other = s.fu k.other)

/-- R37, R271: the status codes. -/
def Obligations.StatusCodesAreTheTables : Prop :=
  [Status.resetDone, .header, .nothingReserved, .nothingAbsorbed, .one, .seq].map statusCode =
    [0x00#8, 0x01#8, 0x10#8, 0x11#8, 0x20#8, 0x21#8] ∧
  [Reason.packetTooLong, .shortFixedHeader, .shortCsrcList, .shortExtHeader, .shortExtData, .paddingOverrun, .emptyPayload,
    .shortAggHeader, .truncatedPrefix, .entryOverrun, .trailingBytes, .emptyEntry, .shortFuHeader, .fragmentTooLarge,
    .orphanedFragment, .illegalCommand].map (fun r => statusCode (.error r)) =
    [0x80#8, 0x81#8, 0x82#8, 0x83#8, 0x84#8, 0x85#8, 0x86#8, 0x87#8, 0x88#8, 0x89#8, 0x8A#8, 0x8B#8, 0x8C#8, 0x8D#8,
      0x90#8, 0xA0#8] ∧
  ∀ r : Reason, reasonKind r = .malformedPacket ↔ r ≠ .orphanedFragment ∧ r ≠ .illegalCommand

/-- R175, R190, R130, R233 to R236 (the bounds are the spec's own inference, R7): a unit emitted on the single-NAL and
aggregation paths (or PARSE's payload) has at most MAX_PKT_LEN - 12 bytes, and one emitted on the fragmentation path is
within FU_BUF_CAP. -/
def Obligations.EmittedUnitsAreBounded : Prop :=
  ∀ (s t : State) (c : Command) (i : Instr) (r : Result),
    s.command = some c → decode s.params.maxPktLen c = .ok i → step s = .next t → t.result = some r →
    ∀ u ∈ r.units,
      if fuTypeOf s.params.maxPktLen i = none then u.length + 12 ≤ s.params.maxPktLen
      else capAdmits s.params.fuBufCap u.length = true
end

