-- ==== Sys2Proof/Laws/Operands.lean ====
section
/-! SUPPORT. Reads of byte sequences: the typed reads are the spec's MemRead (R10), a read of what the encoder wrote gives the
value back, and a read does not look before or after its bytes. -/

namespace Sys2Proof.Machine

/-! ## Reads and concatenation -/

theorem u8_append_left {s t : Bytes} {a : Nat} (h : a < s.length) : u8 (s ++ t) a = u8 s a := by
  simp [u8, List.getD_eq_getElem?_getD, List.getElem?_append_left h]

theorem u8_append_right (s t : Bytes) (a : Nat) : u8 (s ++ t) (s.length + a) = u8 t a := by
  simp only [u8, List.getD_eq_getElem?_getD]
  rw [List.getElem?_append_right (Nat.le_add_right _ _), Nat.add_sub_cancel_left]

theorem u8_eq_getElem? {s : Bytes} {a : Nat} (h : a < s.length) : s[a]? = some (u8 s a) := by
  simp [u8, List.getD_eq_getElem?_getD, List.getElem?_eq_getElem h]

theorem be16_append_right (s t : Bytes) (a : Nat) : be16 (s ++ t) (s.length + a) = be16 t a := by
  simp [be16, Nat.add_assoc, u8_append_right]

theorem be24_append_right (s t : Bytes) (a : Nat) : be24 (s ++ t) (s.length + a) = be24 t a := by
  simp [be24, Nat.add_assoc, u8_append_right]

theorem be32_append_right (s t : Bytes) (a : Nat) : be32 (s ++ t) (s.length + a) = be32 t a := by
  simp [be32, Nat.add_assoc, u8_append_right]

/-! ## The typed reads are MemRead (R10, R65) -/

theorem u8_toNat (s : Bytes) (a : Nat) : (u8 s a).toNat = memRead s a 1 := by simp [memRead]

theorem append_toNat {m n : Nat} (x : BitVec m) (y : BitVec n) : (x ++ y).toNat = x.toNat * 2 ^ n + y.toNat := by
  rw [BitVec.toNat_append, Nat.shiftLeft_eq, Nat.mul_comm, Nat.two_pow_add_eq_or_of_lt y.isLt]

theorem be16_toNat (s : Bytes) (a : Nat) : (be16 s a).toNat = memRead s a 2 := by
  simp only [be16, memRead, append_toNat]
  omega

theorem be24_toNat (s : Bytes) (a : Nat) : (be24 s a).toNat = memRead s a 3 := by
  rw [be24, append_toNat, append_toNat]
  simp only [memRead, Nat.add_assoc, Nat.reduceAdd]
  omega

theorem be32_toNat (s : Bytes) (a : Nat) : (be32 s a).toNat = memRead s a 4 := by
  rw [be32, append_toNat, append_toNat, append_toNat]
  simp only [memRead, Nat.add_assoc, Nat.reduceAdd]
  omega

/-! ## Reading what was written (R104) -/

@[simp] theorem bytes16_length (v : BitVec 16) : (bytes16 v).length = 2 := rfl
@[simp] theorem bytes24_length (v : BitVec 24) : (bytes24 v).length = 3 := rfl
@[simp] theorem bytes32_length (v : BitVec 32) : (bytes32 v).length = 4 := rfl

@[simp] theorem be16_bytes16 (v : BitVec 16) (t : Bytes) : be16 (bytes16 v ++ t) 0 = v := by
  apply BitVec.eq_of_toNat_eq
  simp [be16_toNat, memRead, bytes16, u8, Nat.shiftRight_eq_div_pow]
  omega

@[simp] theorem be24_bytes24 (v : BitVec 24) (t : Bytes) : be24 (bytes24 v ++ t) 0 = v := by
  apply BitVec.eq_of_toNat_eq
  simp [be24_toNat, memRead, bytes24, u8, Nat.shiftRight_eq_div_pow]
  omega

@[simp] theorem be32_bytes32 (v : BitVec 32) (t : Bytes) : be32 (bytes32 v ++ t) 0 = v := by
  apply BitVec.eq_of_toNat_eq
  simp [be32_toNat, memRead, bytes32, u8, Nat.shiftRight_eq_div_pow]
  omega

/-- Reading at `n` a sequence whose first `n` bytes end where the field was written. -/
theorem u8_at {q a t : Bytes} {v : Byte} {n : Nat} (hn : a.length = n) (h : q = a ++ (v :: t)) : u8 q n = v := by
  rw [h, ← hn, ← Nat.add_zero a.length, u8_append_right]; rfl

theorem be16_at {q a t : Bytes} {v : BitVec 16} {n : Nat} (hn : a.length = n) (h : q = a ++ (bytes16 v ++ t)) :
    be16 q n = v := by
  rw [h, ← hn, ← Nat.add_zero a.length, be16_append_right, be16_bytes16]

theorem be24_at {q a t : Bytes} {v : BitVec 24} {n : Nat} (hn : a.length = n) (h : q = a ++ (bytes24 v ++ t)) :
    be24 q n = v := by
  rw [h, ← hn, ← Nat.add_zero a.length, be24_append_right, be24_bytes24]

theorem be32_at {q a t : Bytes} {v : BitVec 32} {n : Nat} (hn : a.length = n) (h : q = a ++ (bytes32 v ++ t)) :
    be32 q n = v := by
  rw [h, ← hn, ← Nat.add_zero a.length, be32_append_right, be32_bytes32]

/-- The readable byte at `a` heads what is left from `a` on. -/
theorem drop_eq_u8_cons {s : Bytes} {a : Nat} (h : a < s.length) : s.drop a = u8 s a :: s.drop (a + 1) := by
  rw [List.drop_eq_getElem_cons h]
  simp [u8, List.getD_eq_getElem?_getD, List.getElem?_eq_getElem h]

/-- Writing a 16-bit field that was read gives the bytes it was read from. -/
theorem bytes16_be16 {s : Bytes} {a : Nat} (h : a + 2 ≤ s.length) : bytes16 (be16 s a) = slice s a (a + 2) := by
  have e1 : (be16 s a).extractLsb' 8 8 = u8 s a := BitVec.extractLsb'_append_eq_left
  have e2 : (be16 s a).extractLsb' 0 8 = u8 s (a + 1) := BitVec.extractLsb'_append_eq_right
  rw [bytes16, e1, e2, slice, drop_eq_u8_cons (by omega), drop_eq_u8_cons (by omega)]
  simp

/-- Writing a 24-bit field that was read gives the bytes it was read from. -/
theorem bytes24_be24 {s : Bytes} {a : Nat} (h : a + 3 ≤ s.length) : bytes24 (be24 s a) = slice s a (a + 3) := by
  have h0 := (u8 s a).isLt
  have h1 := (u8 s (a + 1)).isLt
  have h2 := (u8 s (a + 2)).isLt
  have e1 : (be24 s a).extractLsb' 16 8 = u8 s a := by
    apply BitVec.eq_of_toNat_eq
    simp [be24_toNat, memRead, Nat.shiftRight_eq_div_pow, Nat.add_assoc]; omega
  have e2 : (be24 s a).extractLsb' 8 8 = u8 s (a + 1) := by
    apply BitVec.eq_of_toNat_eq
    simp [be24_toNat, memRead, Nat.shiftRight_eq_div_pow, Nat.add_assoc]; omega
  have e3 : (be24 s a).extractLsb' 0 8 = u8 s (a + 2) := BitVec.extractLsb'_append_eq_right
  rw [bytes24, e1, e2, e3, slice, drop_eq_u8_cons (by omega), drop_eq_u8_cons (by omega), drop_eq_u8_cons (by omega)]
  simp

/-- Writing a 32-bit field that was read gives the bytes it was read from. -/
theorem bytes32_be32 {s : Bytes} {a : Nat} (h : a + 4 ≤ s.length) : bytes32 (be32 s a) = slice s a (a + 4) := by
  have h0 := (u8 s a).isLt
  have h1 := (u8 s (a + 1)).isLt
  have h2 := (u8 s (a + 2)).isLt
  have h3 := (u8 s (a + 3)).isLt
  have e1 : (be32 s a).extractLsb' 24 8 = u8 s a := by
    apply BitVec.eq_of_toNat_eq
    simp [be32_toNat, memRead, Nat.shiftRight_eq_div_pow, Nat.add_assoc]; omega
  have e2 : (be32 s a).extractLsb' 16 8 = u8 s (a + 1) := by
    apply BitVec.eq_of_toNat_eq
    simp [be32_toNat, memRead, Nat.shiftRight_eq_div_pow, Nat.add_assoc]; omega
  have e3 : (be32 s a).extractLsb' 8 8 = u8 s (a + 2) := by
    apply BitVec.eq_of_toNat_eq
    simp [be32_toNat, memRead, Nat.shiftRight_eq_div_pow, Nat.add_assoc]; omega
  have e4 : (be32 s a).extractLsb' 0 8 = u8 s (a + 3) := BitVec.extractLsb'_append_eq_right
  rw [bytes32, e1, e2, e3, e4, slice, drop_eq_u8_cons (by omega), drop_eq_u8_cons (by omega),
    drop_eq_u8_cons (by omega), drop_eq_u8_cons (by omega)]
  simp

/-! ## Slices -/

@[simp] theorem slice_length (s : Bytes) (a b : Nat) : (slice s a b).length = min (b - a) (s.length - a) := by
  simp [slice]

theorem slice_to_end (s : Bytes) (a : Nat) : slice s a s.length = s.drop a := by
  simp [slice, List.take_of_length_le]

theorem slice_append_right (s t : Bytes) (a b : Nat) : slice (s ++ t) (s.length + a) (s.length + b) = slice t a b := by
  rw [slice, slice, List.drop_length_add_append, Nat.add_sub_add_left]

/-- The slice where some bytes were written is those bytes. -/
theorem slice_at {q a b t : Bytes} {n m : Nat} (hn : a.length = n) (hm : m = n + b.length) (h : q = a ++ (b ++ t)) :
    slice q n m = b := by
  have := slice_append_right a (b ++ t) 0 b.length
  rw [Nat.add_zero] at this
  rw [h, hm, ← hn, this]
  simp [slice]

/-- Two adjacent slices are one. -/
theorem slice_append_slice (s : Bytes) {a b c : Nat} (h₁ : a ≤ b) (h₂ : b ≤ c) :
    slice s a b ++ slice s b c = slice s a c := by
  have : c - a = (b - a) + (c - b) := by omega
  rw [slice, slice, slice, this, List.take_add, List.drop_drop]
  congr 3
  omega

theorem slice_getElem? {s : Bytes} {a b i : Nat} (h : i < b - a) : (slice s a b)[i]? = s[a + i]? := by
  simp [slice, h]

/-! ## Headers of fragments -/

theorem fuHeaderLen_bounds (f : Framing) (k : FuType) : 2 ≤ fuHeaderLen f k ∧ fuHeaderLen f k ≤ 5 := by
  cases f <;> cases k <;> decide

theorem aggPfx_pos (f : Framing) (t : AggType) : 2 ≤ aggPfx f t := by
  cases f <;> cases t <;> decide

theorem aggPfx_le_aggHdr (f : Framing) (t : AggType) : aggPfx f t ≤ aggHdr f t := by
  cases f <;> cases t <;> decide

end Sys2Proof.Machine
end

