-- ==== Sys2Proof/Laws/State.lean ====
section
/-! SUPPORT. One lemma per field per update of State. -/

namespace Sys2Proof.Machine

variable (s : State) (r : Result) (e : Reason) (k : FuType) (v w : FuState)

@[simp] theorem deliver_fuA : (s.deliver r).fuA = s.fuA := rfl
@[simp] theorem deliver_fuB : (s.deliver r).fuB = s.fuB := rfl
@[simp] theorem deliver_params : (s.deliver r).params = s.params := rfl
@[simp] theorem deliver_command : (s.deliver r).command = s.command := rfl
@[simp] theorem deliver_result : (s.deliver r).result = some r := rfl

@[simp] theorem raise_fuA : (s.raise e).fuA = s.fuA := rfl
@[simp] theorem raise_fuB : (s.raise e).fuB = s.fuB := rfl
@[simp] theorem raise_params : (s.raise e).params = s.params := rfl
@[simp] theorem raise_command : (s.raise e).command = s.command := rfl
@[simp] theorem raise_result : (s.raise e).result = some (errorResult e) := rfl

@[simp] theorem takeCommand_fuA : s.takeCommand.fuA = s.fuA := rfl
@[simp] theorem takeCommand_fuB : s.takeCommand.fuB = s.fuB := rfl
@[simp] theorem takeCommand_params : s.takeCommand.params = s.params := rfl
@[simp] theorem takeCommand_command : s.takeCommand.command = none := rfl
@[simp] theorem takeCommand_result : s.takeCommand.result = s.result := rfl

@[simp] theorem setFu_params : (s.setFu k v).params = s.params := by cases k <;> rfl
@[simp] theorem setFu_command : (s.setFu k v).command = s.command := by cases k <;> rfl
@[simp] theorem setFu_result : (s.setFu k v).result = s.result := by cases k <;> rfl
@[simp] theorem setFu_A_fuA : (s.setFu .A v).fuA = v := rfl
@[simp] theorem setFu_A_fuB : (s.setFu .A v).fuB = s.fuB := rfl
@[simp] theorem setFu_B_fuA : (s.setFu .B v).fuA = s.fuA := rfl
@[simp] theorem setFu_B_fuB : (s.setFu .B v).fuB = v := rfl

@[simp] theorem fu_A : s.fu .A = s.fuA := rfl
@[simp] theorem fu_B : s.fu .B = s.fuB := rfl
@[simp] theorem fu_deliver : (s.deliver r).fu k = s.fu k := by cases k <;> rfl
@[simp] theorem fu_raise : (s.raise e).fu k = s.fu k := by cases k <;> rfl
@[simp] theorem fu_takeCommand : s.takeCommand.fu k = s.fu k := by cases k <;> rfl

/-- Reading back the machine written. -/
@[simp] theorem fu_setFu_self : (s.setFu k v).fu k = v := by cases k <;> rfl

/-- The other machine is not the one written (R41). -/
theorem fu_setFu_of_ne {j : FuType} (h : j ≠ k) : (s.setFu k v).fu j = s.fu j := by
  cases j <;> cases k <;> first | rfl | exact absurd rfl h

@[simp] theorem setFu_setFu_self : (s.setFu k v).setFu k w = s.setFu k w := by cases k <;> rfl

@[simp] theorem deliver_deliver (r' : Result) : (s.deliver r).deliver r' = s.deliver r' := rfl

/-- Only the last result stands, whatever a machine write comes between. -/
@[simp] theorem deliver_setFu_deliver (r' : Result) : ((s.deliver r).setFu k v).deliver r' = (s.setFu k v).deliver r' := by
  cases k <;> rfl

@[simp] theorem errorResult_status : (errorResult e).status = .error e := rfl
@[simp] theorem errorResult_header : (errorResult e).header = none := rfl
@[simp] theorem errorResult_units : (errorResult e).units = [] := rfl
@[simp] theorem errorResult_aggMeta : (errorResult e).aggMeta = none := rfl

end Sys2Proof.Machine
end

