-- ==== Sys2Proof/Laws/Aggregation.lean ====
section
/-! SUPPORT. The aggregation walk: what its fuel is for, what a step of it does, what it can answer. -/

namespace Sys2Proof.Machine

variable {f : Framing} {t : AggType} {pl : Bytes} {pdon ptso : Option (BitVec 16)}

/-- At the end of the payload the walk ends (R190). -/
theorem aggLoop_at_end {fuel o i : Nat} (h : pl.length ≤ o) : aggLoop f t pl pdon ptso fuel o i = .ok [] := by
  cases fuel with
  | zero => rfl
  | succ n => simp [aggLoop, Nat.not_lt.mpr h]

/-- The fuel is no limit: once it covers the bytes left, more of it changes nothing. -/
theorem aggLoop_fuel_irrelevant : ∀ {fuel fuel' o i : Nat}, pl.length - o ≤ fuel → pl.length - o ≤ fuel' →
    aggLoop f t pl pdon ptso fuel o i = aggLoop f t pl pdon ptso fuel' o i := by
  intro fuel
  induction fuel with
  | zero =>
    intro fuel' o i h _
    rw [aggLoop_at_end (by omega), aggLoop_at_end (by omega)]
  | succ n ih =>
    intro fuel' o i h h'
    cases fuel' with
    | zero => rw [aggLoop_at_end (by omega), aggLoop_at_end (by omega)]
    | succ m =>
      simp only [aggLoop]
      split
      · split
        · rfl
        split
        · rfl
        split
        · rfl
        · rw [ih (fuel' := m) (by omega) (by omega)]
      · rfl

/-- The three ways an entry is bad, and the good one (R190). -/
theorem aggLoop_entry {fuel o i : Nat} (ho : o < pl.length) :
    (pl.length - o < aggPfx f t ∧ aggLoop f t pl pdon ptso (fuel + 1) o i =
        .error (if i = 0 then .truncatedPrefix else .trailingBytes)) ∨
    (aggPfx f t ≤ pl.length - o ∧ entryLen f t pl o = 0 ∧
      aggLoop f t pl pdon ptso (fuel + 1) o i = .error .emptyEntry) ∨
    (aggPfx f t ≤ pl.length - o ∧ 1 ≤ entryLen f t pl o ∧ pl.length - o < aggHdr f t + entryLen f t pl o ∧
      aggLoop f t pl pdon ptso (fuel + 1) o i = .error .entryOverrun) ∨
    (1 ≤ entryLen f t pl o ∧ o + aggHdr f t + entryLen f t pl o ≤ pl.length ∧
      aggLoop f t pl pdon ptso (fuel + 1) o i =
        match aggLoop f t pl pdon ptso fuel (o + aggHdr f t + entryLen f t pl o) (i + 1) with
        | .error e => .error e
        | .ok rest => .ok ((slice pl (o + aggHdr f t) (o + aggHdr f t + entryLen f t pl o),
            entryMeta f t pl o i pdon ptso) :: rest)) := by
  simp only [aggLoop, ho, if_true]
  split
  · exact .inl ⟨by assumption, rfl⟩
  split
  · exact .inr (.inl ⟨by omega, by assumption, rfl⟩)
  split
  · exact .inr (.inr (.inl ⟨by omega, by omega, by assumption, rfl⟩))
  · exact .inr (.inr (.inr ⟨by omega, by omega, rfl⟩))

/-- One good entry, and then the rest. -/
theorem aggLoop_good {fuel o i : Nat} (hl : 1 ≤ entryLen f t pl o)
    (hb : o + aggHdr f t + entryLen f t pl o ≤ pl.length) :
    aggLoop f t pl pdon ptso (fuel + 1) o i =
      match aggLoop f t pl pdon ptso fuel (o + aggHdr f t + entryLen f t pl o) (i + 1) with
      | .error e => .error e
      | .ok rest => .ok ((slice pl (o + aggHdr f t) (o + aggHdr f t + entryLen f t pl o),
          entryMeta f t pl o i pdon ptso) :: rest) := by
  have hp := aggPfx_le_aggHdr f t
  rcases aggLoop_entry (fuel := fuel) (i := i) (pdon := pdon) (ptso := ptso) (f := f) (t := t) (pl := pl) (o := o) (by omega)
    with h | h | h | h
  · omega
  · omega
  · omega
  · exact h.2.2

/-- A walk that succeeds answers SEQ with one metadata entry per unit (R38, R190). -/
theorem aggWalk_ok {h : Header} {r : Result} (hw : aggWalk f t h pl = .ok r) :
    aggStart f t ≤ pl.length ∧ ∃ es,
      aggLoop f t pl (packetFields f t pl).1 (packetFields f t pl).2 pl.length (aggStart f t) 0 = .ok es ∧
      r = { status := .seq, header := some h, units := es.map Prod.fst,
            aggMeta := some ⟨(packetFields f t pl).1, (packetFields f t pl).2, es.map Prod.snd⟩ } := by
  simp only [aggWalk] at hw
  split at hw
  · cases hw
  · split at hw
    · cases hw
    · next es he =>
      cases hw
      exact ⟨by omega, es, he, rfl⟩

/-- An aggregation only delivers a result: a SEQ result, or an error (R191). -/
theorem aggOp_cases (t : AggType) (h : Header) (pl : Bytes) (s : State) :
    (∃ e, aggWalk s.params.framing t h pl = .error e ∧ aggOp t h pl s = s.raise e) ∨
    (∃ r, aggWalk s.params.framing t h pl = .ok r ∧ r.status = .seq ∧ aggOp t h pl s = s.deliver r) := by
  rcases hw : aggWalk s.params.framing t h pl with e | r
  · exact .inl ⟨e, rfl, by simp [aggOp, hw]⟩
  · obtain ⟨_, es, _, rfl⟩ := aggWalk_ok hw
    exact .inr ⟨_, rfl, rfl, by simp [aggOp, hw]⟩

end Sys2Proof.Machine
end

