-- ==== Sys2Proof/Laws/Encoding.lean ====
section
/-! SUPPORT. Lengths of what the encoder writes, and where it puts the payload. -/

namespace Sys2Proof

open Machine

/-! ## The rows of the tables -/

/-- The masks of R98 are the ranges of TYPE. -/
theorem nal8_rows (b : Byte) :
    rowMatches8 0x1F#8 0x00#8 b = decide (b.toNat % 32 = 0) ∧
    rowMatches8 0x1F#8 0x01#8 b = decide (b.toNat % 32 = 1) ∧
    rowMatches8 0x1E#8 0x02#8 b = decide (2 ≤ b.toNat % 32 ∧ b.toNat % 32 ≤ 3) ∧
    rowMatches8 0x1C#8 0x04#8 b = decide (4 ≤ b.toNat % 32 ∧ b.toNat % 32 ≤ 7) ∧
    rowMatches8 0x18#8 0x08#8 b = decide (8 ≤ b.toNat % 32 ∧ b.toNat % 32 ≤ 15) ∧
    rowMatches8 0x18#8 0x10#8 b = decide (16 ≤ b.toNat % 32 ∧ b.toNat % 32 ≤ 23) ∧
    rowMatches8 0x1F#8 0x18#8 b = decide (b.toNat % 32 = 24) ∧
    rowMatches8 0x1F#8 0x19#8 b = decide (b.toNat % 32 = 25) ∧
    rowMatches8 0x1F#8 0x1A#8 b = decide (b.toNat % 32 = 26) ∧
    rowMatches8 0x1F#8 0x1B#8 b = decide (b.toNat % 32 = 27) ∧
    rowMatches8 0x1F#8 0x1C#8 b = decide (b.toNat % 32 = 28) ∧
    rowMatches8 0x1F#8 0x1D#8 b = decide (b.toNat % 32 = 29) ∧
    rowMatches8 0x1E#8 0x1E#8 b = decide (30 ≤ b.toNat % 32) := by
  revert b
  decide +kernel

/-- The mask of R99 is TYPE in the first byte and the start and end bits in the second. -/
theorem rowMatches16_be16 (t se : Byte) (pl : Bytes) :
    rowMatches16 (t ++ se) (be16 pl 0) = (rowMatches8 0x1F#8 t (u8 pl 0) && rowMatches8 0xC0#8 se (u8 pl 1)) := by
  have hm : (0x1FC0#16) = (0x1F#8 ++ 0xC0#8 : BitVec 16) := by decide
  have ha : be16 pl 0 &&& 0x1FC0#16 = ((u8 pl 0 &&& 0x1F#8) ++ (u8 pl 1 &&& 0xC0#8) : BitVec 16) := by
    rw [hm, be16]
    apply BitVec.eq_of_getLsbD_eq
    intro i _
    rw [BitVec.getLsbD_and, BitVec.getLsbD_append, BitVec.getLsbD_append, BitVec.getLsbD_append]
    split <;> simp
  have he : ∀ a b c d : Byte, (a ++ b : BitVec 16) = (c ++ d : BitVec 16) ↔ a = c ∧ b = d := by
    intro a b c d
    constructor
    · intro h
      have h1 := congrArg (BitVec.extractLsb' 8 8) h
      have h2 := congrArg (BitVec.extractLsb' 0 8) h
      exact ⟨BitVec.extractLsb'_append_eq_left.symm.trans (h1.trans BitVec.extractLsb'_append_eq_left),
        BitVec.extractLsb'_append_eq_right.symm.trans (h2.trans BitVec.extractLsb'_append_eq_right)⟩
    · rintro ⟨rfl, rfl⟩; rfl
  rw [rowMatches16, rowMatches8, rowMatches8, ha, Bool.eq_iff_iff, beq_iff_eq, he, Bool.and_eq_true, beq_iff_eq, beq_iff_eq]

/-- The start and end bits of an FU header are its top two bits (R99). -/
theorem startEnd_rows (c : Byte) :
    rowMatches8 0xC0#8 0x80#8 c = (fuS c && !fuE c) ∧ rowMatches8 0xC0#8 0x00#8 c = (!fuS c && !fuE c) ∧
    rowMatches8 0xC0#8 0x40#8 c = (!fuS c && fuE c) ∧ rowMatches8 0xC0#8 0xC0#8 c = (fuS c && fuE c) := by
  revert c
  decide +kernel

/-- TYPE as a number (R97). -/
theorem nalType_toNat (b : Byte) : (nalType b).toNat = b.toNat % 32 := by
  simp [nalType]

/-! ## Header bytes read back (R93) -/

theorem rtpByte0_fields (h : Header) :
    rtpV (rtpByte0 h) = h.v ∧ rtpP (rtpByte0 h) = h.p ∧ rtpX (rtpByte0 h) = h.x ∧ rtpCc (rtpByte0 h) = h.cc := by
  have key : ∀ (v : BitVec 2) (p x : Bool) (cc : BitVec 4), let b : Byte := v ++ BitVec.ofBool p ++ BitVec.ofBool x ++ cc
      rtpV b = v ∧ rtpP b = p ∧ rtpX b = x ∧ rtpCc b = cc := by decide +kernel
  exact key h.v h.p h.x h.cc

theorem rtpByte1_fields (h : Header) : rtpM (rtpByte1 h) = h.m ∧ rtpPt (rtpByte1 h) = h.pt := by
  have key : ∀ (m : Bool) (pt : BitVec 7), let b : Byte := BitVec.ofBool m ++ pt
      rtpM b = m ∧ rtpPt b = pt := by decide +kernel
  exact key h.m h.pt

/-! ## Lengths -/

@[simp] theorem extBytes_none : extBytes none = [] := rfl

/-- The header bytes of a record with as many CSRC words and extension bytes as it says are HLEN bytes (R105). -/
theorem headerBytes_length {h : Header} (hc : h.csrcOk = true) (he : h.extOk = true) :
    (headerBytes h).length = h.lengthOf := by
  have h1 : h.csrc.length = h.cc.toNat := by simpa [Header.csrcOk] using hc
  have h2 : (h.csrc.flatMap bytes32).length = 4 * h.csrc.length := by
    induction h.csrc with
    | nil => rfl
    | cons c cs ih => simp [List.flatMap_cons, ih]; omega
  rcases hx : h.ext with _ | e
  · simp [headerBytes, Header.lengthOf, hx, h2, h1]; omega
  · have h3 : e.data.length = 4 * e.len.toNat := by
      simp [Header.extOk, hx] at he; exact he.2
    simp [headerBytes, Header.lengthOf, hx, h2, h1, extBytes, h3]; omega

/-- What `Header.consistent` says, part by part. -/
theorem consistent_iff {h : Header} {maxLen : Nat} {pl : Bytes} :
    h.consistent maxLen pl = true ↔ h.csrcOk = true ∧ h.extOk = true ∧ h.hlen = h.lengthOf ∧
      h.plEnd = h.hlen + pl.length ∧ h.padOk pl = true ∧ h.plEnd + h.pad.toNat ≤ maxLen := by
  simp [Header.consistent, Header.boundsOk, Header.sizeOk, and_assoc]

/-- The payload stands at HLEN of the encoded packet (R62). -/
theorem u8_encodePacket {h : Header} {maxLen : Nat} {pl : Bytes} (hc : h.consistent maxLen pl = true) {i : Nat}
    (hi : i < pl.length) : u8 (encodePacket h pl) (h.hlen + i) = u8 pl i := by
  obtain ⟨h1, h2, h3, -⟩ := consistent_iff.mp hc
  rw [encodePacket, List.append_assoc, h3, ← headerBytes_length h1 h2, u8_append_right, u8_append_left hi]

theorem be16_encodePacket {h : Header} {maxLen : Nat} {pl : Bytes} (hc : h.consistent maxLen pl = true)
    (hi : 2 ≤ pl.length) : be16 (encodePacket h pl) h.hlen = be16 pl 0 := by
  have h0 := u8_encodePacket hc (i := 0) (by omega)
  have h1 := u8_encodePacket hc (i := 1) (by omega)
  rw [Nat.add_zero] at h0
  simp [be16, h0, h1]

@[simp] theorem len16_length (n : Nat) : (len16 n).length = 2 := rfl

/-- Reading a written length back (R104). -/
theorem be16_len16 {n : Nat} (h : n ≤ 65535) (t : Bytes) : (be16 (len16 n ++ t) 0).toNat = n := by
  rw [len16, be16_bytes16, BitVec.toNat_ofNat, Nat.mod_eq_of_lt (by omega)]

/-- An entry is its layout's prefix and its unit. -/
theorem aggEntryBytes_length (f : Framing) (t : AggType) (e : AggEntry) :
    (aggEntryBytes f t e).length = aggHdr f t + e.unit.length := by
  cases f <;> cases t <;> simp [aggEntryBytes, aggHdr] <;> omega

theorem aggPacketBytes_length (f : Framing) (t : AggType) (pdon ptso : BitVec 16) :
    (aggPacketBytes f t pdon ptso).length + 1 = aggStart f t := by
  cases f <;> cases t <;> rfl

/-- What the walk reads of an entry that was written after `a`: its length and its unit (R102, R103, R190). -/
theorem aggEntry_read (f : Framing) (t : AggType) (e : AggEntry) (a post : Bytes)
    (hl : e.unit.length + (aggHdr f t - aggPfx f t) ≤ 65535) :
    entryLen f t (a ++ aggEntryBytes f t e ++ post) a.length = e.unit.length ∧
    slice (a ++ aggEntryBytes f t e ++ post) (a.length + aggHdr f t) (a.length + aggHdr f t + e.unit.length) = e.unit := by
  have len : ∀ {q b r : Bytes} {m n : Nat}, b.length = n → m ≤ 65535 → q = b ++ (len16 m ++ r) → (be16 q n).toNat = m := by
    intro q b r m n hn hm hq
    rw [be16_at hn hq, BitVec.toNat_ofNat, Nat.mod_eq_of_lt (by omega)]
  cases f <;> cases t <;> simp only [aggHdr, aggPfx] at hl
  · exact ⟨len rfl (by omega) (by simp only [aggEntryBytes, List.append_assoc]; rfl),
      slice_at (a := a ++ len16 e.unit.length) (by simp [aggHdr]) rfl (by simp only [aggEntryBytes, List.append_assoc]; rfl)⟩
  · exact ⟨len (b := a ++ bytes16 e.don) (by simp) (by omega) (by simp only [aggEntryBytes, List.append_assoc]; rfl),
      slice_at (a := a ++ bytes16 e.don ++ len16 e.unit.length) (by simp [aggHdr]) rfl
        (by simp only [aggEntryBytes, List.append_assoc]; rfl)⟩
  · exact ⟨len (b := a ++ bytes16 e.don ++ bytes16 (e.tso.setWidth 16)) (by simp) (by omega)
        (by simp only [aggEntryBytes, List.append_assoc]; rfl),
      slice_at (a := a ++ bytes16 e.don ++ bytes16 (e.tso.setWidth 16) ++ len16 e.unit.length) (by simp [aggHdr]) rfl
        (by simp only [aggEntryBytes, List.append_assoc]; rfl)⟩
  · exact ⟨len (b := a ++ bytes16 e.don ++ bytes24 e.tso) (by simp) (by omega)
        (by simp only [aggEntryBytes, List.append_assoc]; rfl),
      slice_at (a := a ++ bytes16 e.don ++ bytes24 e.tso ++ len16 e.unit.length) (by simp [aggHdr]) rfl
        (by simp only [aggEntryBytes, List.append_assoc]; rfl)⟩
  · exact ⟨len rfl (by omega) (by simp only [aggEntryBytes, List.append_assoc]; rfl),
      slice_at (a := a ++ len16 e.unit.length) (by simp [aggHdr]) rfl (by simp only [aggEntryBytes, List.append_assoc]; rfl)⟩
  · exact ⟨len rfl (by omega) (by simp only [aggEntryBytes, List.append_assoc]; rfl),
      slice_at (a := a ++ len16 e.unit.length) (by simp [aggHdr]) rfl (by simp only [aggEntryBytes, List.append_assoc]; rfl)⟩
  · refine ⟨?_, slice_at (a := a ++ len16 (e.unit.length + 3) ++ [e.dond] ++ bytes16 (e.tso.setWidth 16)) (by simp [aggHdr]) rfl
      (by simp only [aggEntryBytes, List.append_assoc]; rfl)⟩
    simp only [entryLen]
    rw [len (m := e.unit.length + 3) rfl (by omega) (by simp only [aggEntryBytes, List.append_assoc]; rfl)]
    rfl
  · refine ⟨?_, slice_at (a := a ++ len16 (e.unit.length + 4) ++ [e.dond] ++ bytes24 e.tso) (by simp [aggHdr]) rfl
      (by simp only [aggEntryBytes, List.append_assoc]; rfl)⟩
    simp only [entryLen]
    rw [len (m := e.unit.length + 4) rfl (by omega) (by simp only [aggEntryBytes, List.append_assoc]; rfl)]
    rfl

end Sys2Proof
end

