-- ==== Sys2Proof/Laws/Fragmentation.lean ====
section
/-! SUPPORT. What a fragment can do, once. -/

namespace Sys2Proof.Machine

/-- Everything `Fu` can do (R240): a short payload and an orphan change nothing, an oversized run idles the machine, an end
emits the new buffer, and any other fragment keeps it. -/
theorem fuStep_cases (k : FuType) (start stop : Bool) (h : Header) (pl : Bytes) (s : State) :
    (pl.length < fuHeaderLen s.params.framing k ∧ fuStep k start stop h pl s = s.raise .shortFuHeader) ∨
    (fuHeaderLen s.params.framing k ≤ pl.length ∧
      ((start = false ∧ s.fu k = .idle ∧ fuStep k start stop h pl s = s.raise .orphanedFragment) ∨
      ∃ nb, fuNextBuffer start (s.fu k) pl
          (slice pl (fuHeaderLen s.params.framing k) pl.length) = .ok nb ∧
        ((capAdmits s.params.fuBufCap nb.length = false ∧
            fuStep k start stop h pl s = (s.setFu k .idle).raise .fragmentTooLarge) ∨
          (capAdmits s.params.fuBufCap nb.length = true ∧ stop = true ∧
            fuStep k start stop h pl s = (s.setFu k .idle).deliver ⟨.one, some h, [nb], none⟩) ∨
          (capAdmits s.params.fuBufCap nb.length = true ∧ stop = false ∧
            fuStep k start stop h pl s =
              (s.setFu k (.accumulating nb)).deliver ⟨.nothingAbsorbed, some h, [], none⟩)))) := by
  simp only [fuStep]
  split
  · exact .inl ⟨by assumption, rfl⟩
  · refine .inr ⟨by omega, ?_⟩
    split
    · next e he =>
      simp only [fuNextBuffer] at he
      split at he
      · cases he
      · split at he
        · cases he
          exact .inl ⟨Bool.eq_false_of_not_eq_true (by assumption), by assumption, rfl⟩
        · cases he
    · next nb hn =>
      refine .inr ⟨nb, hn, ?_⟩
      simp only [fuFinish]
      split
      · split
        · exact .inr (.inl ⟨by assumption, by assumption, rfl⟩)
        · exact .inr (.inr ⟨by assumption, Bool.eq_false_of_not_eq_true (by assumption), rfl⟩)
      · exact .inl ⟨Bool.eq_false_of_not_eq_true (by assumption), rfl⟩

/-- A new buffer is the reconstructed header byte and the fragment, or the prior run and the fragment. -/
theorem fuNextBuffer_ok {start : Bool} {prior : FuState} {pl frag nb : Bytes}
    (h : fuNextBuffer start prior pl frag = .ok nb) :
    (start = true ∧ nb = reconHeader (u8 pl 0) (u8 pl 1) :: frag) ∨
    (start = false ∧ ∃ buf, prior = .accumulating buf ∧ nb = buf ++ frag) := by
  simp only [fuNextBuffer] at h
  split at h
  · cases h; exact .inl ⟨by assumption, rfl⟩
  · split at h
    · cases h
    · cases h; exact .inr ⟨Bool.eq_false_of_not_eq_true (by assumption), _, rfl, rfl⟩

/-- A fragment never writes the other machine (R41). -/
theorem fuStep_other {j k : FuType} (hj : j ≠ k) (start stop : Bool) (h : Header) (pl : Bytes) (s : State) :
    (fuStep k start stop h pl s).fu j = s.fu j := by
  rcases fuStep_cases k start stop h pl s with ⟨_, e⟩ | ⟨_, ⟨_, _, e⟩ | ⟨nb, _, ⟨_, e⟩ | ⟨_, _, e⟩ | ⟨_, _, e⟩⟩⟩ <;>
    simp [e, fu_setFu_of_ne, hj]

@[simp] theorem fuStep_params (k : FuType) (start stop : Bool) (h : Header) (pl : Bytes) (s : State) :
    (fuStep k start stop h pl s).params = s.params := by
  rcases fuStep_cases k start stop h pl s with ⟨_, e⟩ | ⟨_, ⟨_, _, e⟩ | ⟨nb, _, ⟨_, e⟩ | ⟨_, _, e⟩ | ⟨_, _, e⟩⟩⟩ <;> simp [e]

@[simp] theorem fuStep_command (k : FuType) (start stop : Bool) (h : Header) (pl : Bytes) (s : State) :
    (fuStep k start stop h pl s).command = s.command := by
  rcases fuStep_cases k start stop h pl s with ⟨_, e⟩ | ⟨_, ⟨_, _, e⟩ | ⟨nb, _, ⟨_, e⟩ | ⟨_, _, e⟩ | ⟨_, _, e⟩⟩⟩ <;> simp [e]

end Sys2Proof.Machine
end

