-- ==== Sys2Proof/Laws/HeaderParser.lean ====
section
/-! SUPPORT. What the header parser's procedures can answer, once each. -/

namespace Sys2Proof.Machine

/-- HeaderParse answers a record only when every length check passes, and then this one (R135). -/
theorem headerParse_ok {maxLen : Nat} {p : Bytes} {h : Header} (hp : headerParse maxLen p = .ok h) :
    p.length ≤ maxLen ∧ 12 ≤ p.length ∧ 12 + 4 * (rtpCc (u8 p 0)).toNat ≤ p.length ∧
    ((rtpX (u8 p 0) = false ∧
        h = { fixedHeader p with
          csrc := csrcList p (rtpCc (u8 p 0)).toNat
          hlen := 12 + 4 * (rtpCc (u8 p 0)).toNat }) ∨
      (rtpX (u8 p 0) = true ∧ ∃ e len, e = 12 + 4 * (rtpCc (u8 p 0)).toNat ∧ len = be16 p (e + 2) ∧
        e + 4 + 4 * len.toNat ≤ p.length ∧
        h = { fixedHeader p with
          csrc := csrcList p (rtpCc (u8 p 0)).toNat
          ext := some ⟨be16 p e, len, slice p (e + 4) (e + 4 + 4 * len.toNat)⟩
          hlen := e + 4 + 4 * len.toNat })) := by
  have hcc : (fixedHeader p).cc = rtpCc (u8 p 0) := rfl
  have hx : (fixedHeader p).x = rtpX (u8 p 0) := rfl
  unfold headerParse at hp
  simp only [hcc, hx] at hp
  by_cases h1 : maxLen < p.length
  · rw [if_pos h1] at hp; cases hp
  rw [if_neg h1] at hp
  by_cases h2 : p.length < 12
  · rw [if_pos h2] at hp; cases hp
  rw [if_neg h2] at hp
  by_cases h3 : p.length < 12 + 4 * (rtpCc (u8 p 0)).toNat
  · rw [if_pos h3] at hp; cases hp
  rw [if_neg h3] at hp
  refine ⟨by omega, by omega, by omega, ?_⟩
  cases h4 : rtpX (u8 p 0)
  · rw [if_neg (by simp [h4])] at hp
    cases hp
    exact .inl ⟨rfl, rfl⟩
  rw [if_pos h4] at hp
  by_cases h5 : p.length < 12 + 4 * (rtpCc (u8 p 0)).toNat + 4
  · rw [if_pos h5] at hp; cases hp
  rw [if_neg h5] at hp
  by_cases h6 : p.length < 12 + 4 * (rtpCc (u8 p 0)).toNat + 4 +
      4 * (be16 p (12 + 4 * (rtpCc (u8 p 0)).toNat + 2)).toNat
  · rw [if_pos h6] at hp; cases hp
  rw [if_neg h6] at hp
  cases hp
  exact .inr ⟨rfl, _, _, rfl, rfl, by omega, rfl⟩

/-- Payload answers only when the padding count fits behind the header, and then this range (R136). -/
theorem payload_ok {p pl : Bytes} {h h' : Header} (hp : payload p h = .ok (h', pl)) :
    (h.p = false ∧ h' = { h with pad := 0#8, plEnd := p.length } ∧ pl = slice p h.hlen p.length) ∨
    (h.p = true ∧ p.length ≠ h.hlen ∧ (u8 p (p.length - 1)).toNat ≤ p.length - h.hlen ∧
      h' = { h with pad := u8 p (p.length - 1), plEnd := p.length - (u8 p (p.length - 1)).toNat } ∧
      pl = slice p h.hlen (p.length - (u8 p (p.length - 1)).toNat)) := by
  simp only [payload] at hp
  split at hp
  · split at hp
    · cases hp
    split at hp
    · cases hp
    · cases hp
      exact .inr ⟨by assumption, by assumption, by omega, rfl, rfl⟩
  · cases hp
    exact .inl ⟨Bool.eq_false_of_not_eq_true (by assumption), rfl, rfl⟩

/-- HeaderParse then Payload. -/
theorem parsePacket_ok {maxLen : Nat} {p pl : Bytes} {h' : Header} (hp : parsePacket maxLen p = .ok (h', pl)) :
    ∃ h, headerParse maxLen p = .ok h ∧ payload p h = .ok (h', pl) := by
  simp only [parsePacket] at hp
  split at hp
  · cases hp
  · exact ⟨_, by assumption, hp⟩

/-- EXTRACT's operands are those of a parsed packet whose payload is not empty (R172). -/
theorem extractOperands_ok_iff {maxLen : Nat} {p pl : Bytes} {h : Header} :
    extractOperands maxLen p = .ok (h, pl) ↔ parsePacket maxLen p = .ok (h, pl) ∧ pl ≠ [] := by
  unfold extractOperands
  split
  · simp [*]
  · next h' pl' hp =>
    rw [hp]
    by_cases he : pl'.length = 0
    · simp only [he, if_true, reduceCtorEq, Except.ok.injEq, Prod.mk.injEq, false_iff, not_and, ne_eq, Decidable.not_not]
      rintro ⟨-, rfl⟩
      exact List.length_eq_zero_iff.mp he
    · simp only [he, if_false, Except.ok.injEq, Prod.mk.injEq]
      constructor
      · rintro ⟨rfl, rfl⟩
        exact ⟨⟨rfl, rfl⟩, by simpa using he⟩
      · exact And.left

@[simp] theorem csrcList_length (p : Bytes) (n : Nat) : (csrcList p n).length = n := by simp [csrcList]

/-- Written out again, the words of a CSRC list inside the packet are its bytes (R94). -/
theorem csrcList_bytes {p : Bytes} {n : Nat} (h : 12 + 4 * n ≤ p.length) :
    (csrcList p n).flatMap bytes32 = slice p 12 (12 + 4 * n) := by
  induction n with
  | zero => simp [csrcList, slice]
  | succ n ih =>
    have hw : bytes32 (be32 p (12 + 4 * n)) = slice p (12 + 4 * n) (12 + 4 * n + 4) := bytes32_be32 (by omega)
    have hi := ih (by omega)
    simp only [csrcList, List.range_succ, List.map_append, List.flatMap_append] at hi ⊢
    rw [hi]
    simp only [List.map_cons, List.map_nil, List.flatMap_cons, List.flatMap_nil, List.append_nil, hw]
    exact slice_append_slice p (by omega) (by omega)

/-- Reading a CSRC list back from its bytes, wherever the packet has them (R94). -/
theorem csrcList_of_bytes (cs : List (BitVec 32)) {pre post : Bytes} (h : pre.length = 12) :
    csrcList (pre ++ cs.flatMap bytes32 ++ post) cs.length = cs := by
  have key : ∀ (cs : List (BitVec 32)) (pre : Bytes),
      (List.range cs.length).map (fun i => be32 (pre ++ cs.flatMap bytes32 ++ post) (pre.length + 4 * i)) = cs := by
    intro cs
    induction cs with
    | nil => intro pre; rfl
    | cons c cs ih =>
      intro pre
      rw [List.length_cons, List.range_succ_eq_map, List.map_cons, List.map_map]
      have h0 : be32 (pre ++ (c :: cs).flatMap bytes32 ++ post) (pre.length + 4 * 0) = c := by
        rw [List.append_assoc, be32_append_right, List.flatMap_cons, List.append_assoc, Nat.mul_zero, be32_bytes32]
      have ht := ih (pre ++ bytes32 c)
      rw [h0]
      congr 1
      refine Eq.trans (List.map_congr_left fun i _ => ?_) ht
      simp only [Function.comp_apply, List.length_append, bytes32_length, List.flatMap_cons, List.append_assoc]
      congr 1
      omega
  have := key cs pre
  rwa [h] at this

end Sys2Proof.Machine
end

