-- ==== Sys2Proof/Laws/PerInstr.lean ====
section
/-! SUPPORT. Per instruction: the command the encoder writes for a well-formed instruction matches the instruction's row of
spec/opcode_table.json, at the place the row's format says (R91, R98, R99). -/

namespace Sys2Proof.Laws.MatchesRow

open Sys2Proof Sys2Proof.Machine

/-- Where the payload begins in the packet of an instruction's command. -/
def payloadOffset : Instr → Nat
  | .reset => 0
  | .parse _ => 0
  | .extract _ => 0
  | .reservedType0 h _ => h.hlen
  | .reservedType30To31 h _ => h.hlen
  | .singleNalType1 h _ => h.hlen
  | .singleNalType2To3 h _ => h.hlen
  | .singleNalType4To7 h _ => h.hlen
  | .singleNalType8To15 h _ => h.hlen
  | .singleNalType16To23 h _ => h.hlen
  | .stapA h _ => h.hlen
  | .stapB h _ => h.hlen
  | .mtap16 h _ => h.hlen
  | .mtap24 h _ => h.hlen
  | .fuA h _ => h.hlen
  | .fuB h _ => h.hlen
  | .fuAStart h _ => h.hlen
  | .fuAMiddle h _ => h.hlen
  | .fuAEnd h _ => h.hlen
  | .fuAStartEnd h _ => h.hlen
  | .fuBStart h _ => h.hlen
  | .fuBMiddle h _ => h.hlen
  | .fuBEnd h _ => h.hlen
  | .fuBStartEnd h _ => h.hlen

/-- The encoded command matches the instruction's row. -/
def Statement (i : Instr) : Prop :=
  ∀ maxLen : Nat, i.wellFormed maxLen = true →
    rowWord (encode i) (payloadOffset i) (tableRow i).format &&& (tableRow i).mask = (tableRow i).value

/-- Masking a byte and widening commute. -/
theorem mask_setWidth (b m v : Byte) (h : b &&& m = v) :
    b.setWidth 16 &&& m.setWidth 16 = v.setWidth 16 := by rw [← h, BitVec.setWidth_and]

theorem nal8_of_wellFormed {h : Header} {maxLen : Nat} {pl : Bytes} {m v : Byte}
    (hw : (h.consistent maxLen pl && matchesNal8 m v pl) = true) :
    (u8 (encodePacket h pl) h.hlen).setWidth 16 &&& m.setWidth 16 = v.setWidth 16 := by
  simp only [Bool.and_eq_true, matchesNal8, rowMatches8, decide_eq_true_eq, beq_iff_eq] at hw
  have := u8_encodePacket hw.1 (i := 0) (by omega)
  rw [Nat.add_zero] at this
  rw [this]
  exact mask_setWidth _ _ _ hw.2.2

theorem fu16_of_wellFormed {h : Header} {maxLen : Nat} {pl : Bytes} {v : BitVec 16}
    (hw : (h.consistent maxLen pl && matchesFu16 v pl) = true) :
    be16 (encodePacket h pl) h.hlen &&& 0x1FC0#16 = v := by
  simp only [Bool.and_eq_true, matchesFu16, rowMatches16, decide_eq_true_eq, beq_iff_eq] at hw
  rw [be16_encodePacket hw.1 hw.2.1]
  exact hw.2.2

theorem reset : Statement .reset := fun _ _ => by decide
theorem parse (p : Bytes) : Statement (.parse p) := fun _ _ => by
  show (0x01#8).setWidth 16 &&& 0xFF#16 = 0x01#16; decide
theorem extract (p : Bytes) : Statement (.extract p) := fun _ _ => by
  show (0x02#8).setWidth 16 &&& 0xFF#16 = 0x02#16; decide
theorem reservedType0 (h : Header) (pl : Bytes) : Statement (.reservedType0 h pl) := fun _ hw => nal8_of_wellFormed hw
theorem reservedType30To31 (h : Header) (pl : Bytes) : Statement (.reservedType30To31 h pl) := fun _ hw => nal8_of_wellFormed hw
theorem singleNalType1 (h : Header) (pl : Bytes) : Statement (.singleNalType1 h pl) := fun _ hw => nal8_of_wellFormed hw
theorem singleNalType2To3 (h : Header) (pl : Bytes) : Statement (.singleNalType2To3 h pl) := fun _ hw => nal8_of_wellFormed hw
theorem singleNalType4To7 (h : Header) (pl : Bytes) : Statement (.singleNalType4To7 h pl) := fun _ hw => nal8_of_wellFormed hw
theorem singleNalType8To15 (h : Header) (pl : Bytes) : Statement (.singleNalType8To15 h pl) := fun _ hw => nal8_of_wellFormed hw
theorem singleNalType16To23 (h : Header) (pl : Bytes) : Statement (.singleNalType16To23 h pl) := fun _ hw => nal8_of_wellFormed hw
theorem stapA (h : Header) (pl : Bytes) : Statement (.stapA h pl) := fun _ hw => nal8_of_wellFormed hw
theorem stapB (h : Header) (pl : Bytes) : Statement (.stapB h pl) := fun _ hw => nal8_of_wellFormed hw
theorem mtap16 (h : Header) (pl : Bytes) : Statement (.mtap16 h pl) := fun _ hw => nal8_of_wellFormed hw
theorem mtap24 (h : Header) (pl : Bytes) : Statement (.mtap24 h pl) := fun _ hw => nal8_of_wellFormed hw
theorem fuA (h : Header) (pl : Bytes) : Statement (.fuA h pl) := fun _ hw =>
  nal8_of_wellFormed (Bool.and_eq_true_iff.mp hw).1
theorem fuB (h : Header) (pl : Bytes) : Statement (.fuB h pl) := fun _ hw =>
  nal8_of_wellFormed (Bool.and_eq_true_iff.mp hw).1
theorem fuAStart (h : Header) (pl : Bytes) : Statement (.fuAStart h pl) := fun _ hw => fu16_of_wellFormed hw
theorem fuAMiddle (h : Header) (pl : Bytes) : Statement (.fuAMiddle h pl) := fun _ hw => fu16_of_wellFormed hw
theorem fuAEnd (h : Header) (pl : Bytes) : Statement (.fuAEnd h pl) := fun _ hw => fu16_of_wellFormed hw
theorem fuAStartEnd (h : Header) (pl : Bytes) : Statement (.fuAStartEnd h pl) := fun _ hw => fu16_of_wellFormed hw
theorem fuBStart (h : Header) (pl : Bytes) : Statement (.fuBStart h pl) := fun _ hw => fu16_of_wellFormed hw
theorem fuBMiddle (h : Header) (pl : Bytes) : Statement (.fuBMiddle h pl) := fun _ hw => fu16_of_wellFormed hw
theorem fuBEnd (h : Header) (pl : Bytes) : Statement (.fuBEnd h pl) := fun _ hw => fu16_of_wellFormed hw
theorem fuBStartEnd (h : Header) (pl : Bytes) : Statement (.fuBStartEnd h pl) := fun _ hw => fu16_of_wellFormed hw

end Sys2Proof.Laws.MatchesRow
end

