-- ==== Sys2Proof/Tests/Slice0.lean ====
section
/-! SUPPORT. The model's own tests: words written out from spec/30_encoding.md, single steps with the results of
spec/95_test_vectors.md (each test names its vector), the well-formedness smoke test, and for every obligation that has
hypotheses a witness that meets them. -/

namespace Sys2Proof.Tests

open Machine

/-! ## Helpers -/

/-- `HDR` of 95_test_vectors.md section 0. -/
def hdr : Bytes := [0x80, 0x60, 0x00, 0x01, 0x00, 0x00, 0x00, 0x64, 0x12, 0x34, 0x56, 0x78]

/-- The header record of `HDR` before a payload of `n` bytes (V-H1). -/
def hdrRec (n : Nat) : Header :=
  { v := 2, p := false, x := false, cc := 0, m := false, pt := 96, seq := 1, ts := 100, ssrc := 0x12345678,
    csrc := [], ext := none, hlen := 12, pad := 0, plEnd := 12 + n }

/-- An idle instance that has been given a command. -/
def given (code : Byte) (p : Bytes) : State := { State.reset with command := some ⟨code, p⟩ }

/-- An instance given `EXTRACT HDR pl`. -/
def extractOf (pl : Bytes) : State := given 0x02 (hdr ++ pl)

/-- The same with these machines. -/
def extractIn (a b : FuState) (pl : Bytes) : State := { extractOf pl with fuA := a, fuB := b }

/-- Under FRAMING = RFC6184. -/
def rfc (s : State) : State := { s with params := { s.params with framing := .rfc6184 } }

/-- With another cap. -/
def capped (n : Nat) (s : State) : State := { s with params := { s.params with fuBufCap := .bytes n } }

/-- With another MAX_PKT_LEN. -/
def limited (n : Nat) (s : State) : State := { s with params := { s.params with maxPktLen := n } }

/-- The next state of a step. -/
def after (o : Host.Outcome State Fault Refusal) : Option State :=
  match o with
  | .next t => some t
  | .fault _ => none
  | .refused _ => none

/-- What a step leaves: status and units of its result, both machines. -/
structure Seen where
  status : Status
  units  : List Bytes
  fuA    : FuState
  fuB    : FuState
deriving DecidableEq, Repr

def outcome (s : State) : Option Seen :=
  (after (step s)).bind fun t => t.result.map fun r => ⟨r.status, r.units, t.fuA, t.fuB⟩

/-- The step answers this and leaves both machines idle. -/
def answers (s : State) (st : Status) (us : List Bytes) : Bool := outcome s == some ⟨st, us, .idle, .idle⟩

/-- The metadata entries of the result of a step. -/
def entries (s : State) : Option (List EntryMeta) :=
  (after (step s)).bind fun t => t.result.bind fun r => r.aggMeta.map AggMeta.entries

/-- The packet-level metadata of the result of a step. -/
def packetMeta (s : State) : Option (Option (BitVec 16) × Option (BitVec 16)) :=
  (after (step s)).bind fun t => t.result.bind fun r => r.aggMeta.map fun m => (m.pdon, m.ptso)

/-! ## Decoding: the words of the tables, one for each constructor (R91, R98, R99) -/

theorem test_decode_reset : decode 1500 ⟨0x00, []⟩ = .ok .reset := rfl
theorem test_decode_parse : decode 1500 ⟨0x01, hdr⟩ = .ok (.parse hdr) := rfl
/-- An EXTRACT whose packet raises before the dispatch. -/
theorem test_decode_extract : decode 1500 ⟨0x02, hdr⟩ = .ok (.extract hdr) := rfl
/-- `0 00 00000` -/
theorem test_decode_reservedType0 : decode 1500 ⟨0x02, hdr ++ [0x00]⟩ = .ok (.reservedType0 (hdrRec 1) [0x00]) := rfl
/-- `0 11 11110` and `0 00 11111` -/
theorem test_decode_reservedType30To31 :
    decode 1500 ⟨0x02, hdr ++ [0x7E]⟩ = .ok (.reservedType30To31 (hdrRec 1) [0x7E]) ∧
    decode 1500 ⟨0x02, hdr ++ [0x1F]⟩ = .ok (.reservedType30To31 (hdrRec 1) [0x1F]) := ⟨rfl, rfl⟩
/-- `0 11 00001` -/
theorem test_decode_singleNalType1 : decode 1500 ⟨0x02, hdr ++ [0x61]⟩ = .ok (.singleNalType1 (hdrRec 1) [0x61]) := rfl
/-- `0 10 00011` -/
theorem test_decode_singleNalType2To3 :
    decode 1500 ⟨0x02, hdr ++ [0x43, 0x01]⟩ = .ok (.singleNalType2To3 (hdrRec 2) [0x43, 0x01]) := rfl
/-- `1 11 00101` -/
theorem test_decode_singleNalType4To7 :
    decode 1500 ⟨0x02, hdr ++ [0xE5, 0x01]⟩ = .ok (.singleNalType4To7 (hdrRec 2) [0xE5, 0x01]) := rfl
/-- `0 00 01111` -/
theorem test_decode_singleNalType8To15 :
    decode 1500 ⟨0x02, hdr ++ [0x0F]⟩ = .ok (.singleNalType8To15 (hdrRec 1) [0x0F]) := rfl
/-- `0 00 10111` -/
theorem test_decode_singleNalType16To23 :
    decode 1500 ⟨0x02, hdr ++ [0x17]⟩ = .ok (.singleNalType16To23 (hdrRec 1) [0x17]) := rfl
/-- `0 11 11000` -/
theorem test_decode_stapA : decode 1500 ⟨0x02, hdr ++ [0x78]⟩ = .ok (.stapA (hdrRec 1) [0x78]) := rfl
/-- `0 11 11001` -/
theorem test_decode_stapB : decode 1500 ⟨0x02, hdr ++ [0x79]⟩ = .ok (.stapB (hdrRec 1) [0x79]) := rfl
/-- `0 11 11010` -/
theorem test_decode_mtap16 : decode 1500 ⟨0x02, hdr ++ [0x7A]⟩ = .ok (.mtap16 (hdrRec 1) [0x7A]) := rfl
/-- `0 11 11011` -/
theorem test_decode_mtap24 : decode 1500 ⟨0x02, hdr ++ [0x7B]⟩ = .ok (.mtap24 (hdrRec 1) [0x7B]) := rfl
/-- `0 11 11100`, no second byte -/
theorem test_decode_fuA : decode 1500 ⟨0x02, hdr ++ [0x7C]⟩ = .ok (.fuA (hdrRec 1) [0x7C]) := rfl
/-- `0 11 11101`, no second byte -/
theorem test_decode_fuB : decode 1500 ⟨0x02, hdr ++ [0x7D]⟩ = .ok (.fuB (hdrRec 1) [0x7D]) := rfl
/-- `0 11 11100`, `1 0 0 00101` -/
theorem test_decode_fuAStart : decode 1500 ⟨0x02, hdr ++ [0x7C, 0x85]⟩ = .ok (.fuAStart (hdrRec 2) [0x7C, 0x85]) := rfl
/-- `0 11 11100`, `0 0 1 00101` -/
theorem test_decode_fuAMiddle : decode 1500 ⟨0x02, hdr ++ [0x7C, 0x25]⟩ = .ok (.fuAMiddle (hdrRec 2) [0x7C, 0x25]) := rfl
/-- `0 00 11100`, `0 1 0 00001` -/
theorem test_decode_fuAEnd : decode 1500 ⟨0x02, hdr ++ [0x1C, 0x41]⟩ = .ok (.fuAEnd (hdrRec 2) [0x1C, 0x41]) := rfl
/-- `0 11 11100`, `1 1 0 00101` -/
theorem test_decode_fuAStartEnd :
    decode 1500 ⟨0x02, hdr ++ [0x7C, 0xC5]⟩ = .ok (.fuAStartEnd (hdrRec 2) [0x7C, 0xC5]) := rfl
/-- `0 11 11101`, `1 0 0 00101` -/
theorem test_decode_fuBStart : decode 1500 ⟨0x02, hdr ++ [0x7D, 0x85]⟩ = .ok (.fuBStart (hdrRec 2) [0x7D, 0x85]) := rfl
/-- `0 11 11101`, `0 0 0 00101` -/
theorem test_decode_fuBMiddle : decode 1500 ⟨0x02, hdr ++ [0x7D, 0x05]⟩ = .ok (.fuBMiddle (hdrRec 2) [0x7D, 0x05]) := rfl
/-- `0 11 11101`, `0 1 0 00101` -/
theorem test_decode_fuBEnd : decode 1500 ⟨0x02, hdr ++ [0x7D, 0x45]⟩ = .ok (.fuBEnd (hdrRec 2) [0x7D, 0x45]) := rfl
/-- `0 11 11101`, `1 1 0 00101` -/
theorem test_decode_fuBStartEnd :
    decode 1500 ⟨0x02, hdr ++ [0x7D, 0xC5]⟩ = .ok (.fuBStartEnd (hdrRec 2) [0x7D, 0xC5]) := rfl
/-- The first and the last undefined command code (R92). -/
theorem test_decode_illegal : decode 1500 ⟨0x03, hdr⟩ = .error (.illegalCommand 0x03) ∧
    decode 1500 ⟨0xFF, []⟩ = .error (.illegalCommand 0xFF) := ⟨rfl, rfl⟩

/-! ## Words of the table, as the host places them (log 6) -/

theorem test_table_words :
    decodeTableWord 8 0x01 = some (.parse (List.replicate 12 0)) ∧
    (decodeTableWord 8 0x1C).map tableRow = some ⟨.nal8, 0x1C, 0x1F⟩ ∧
    (decodeTableWord 8 0x19).map tableRow = some ⟨.nal8, 0x19, 0x1F⟩ ∧
    (decodeTableWord 16 0x1C80).map tableRow = some ⟨.fu16, 0x1C80, 0x1FC0⟩ ∧
    (decodeTableWord 16 0x1DC0).map tableRow = some ⟨.fu16, 0x1DC0, 0x1FC0⟩ := by decide

theorem test_table_word_runs :
    outcome (State.reset.withFetchWord 16 0x1C80) = some ⟨.nothingAbsorbed, [], .accumulating [0, 0, 0, 0], .idle⟩ ∧
    answers (State.reset.withFetchWord 8 0x19) .seq [] := by decide

/-! ## The commands -/

/-- V-R2 -/
theorem test_reset : outcome { given 0x00 [] with fuA := .accumulating [0x65, 0x11], fuB := .accumulating [0x67, 0x21] } =
    some ⟨.resetDone, [], .idle, .idle⟩ := by decide

/-- V-H1 -/
theorem test_parse_fields : (after (step (given 0x01 (hdr ++ [0x65, 0xAA, 0xBB])))).bind State.result =
    some ⟨.header, some (hdrRec 3), [[0x65, 0xAA, 0xBB]], none⟩ := by decide

/-- L1-1 with L1-2's extension (both headers at once), and L1-4. -/
theorem test_parse_lists :
    ((after (step (given 0x01 ([0x92, 0x60, 0x00, 0x01, 0x00, 0x00, 0x00, 0x64, 0x12, 0x34, 0x56, 0x78,
        0x00, 0x00, 0x00, 0x01, 0x00, 0x00, 0x00, 0x02, 0xBE, 0xDE, 0x00, 0x01, 0x01, 0x02, 0x03, 0x04, 0x65])))).bind
      fun t => t.result.bind fun r => r.header.map fun h => (h.csrc, h.ext, h.hlen, r.units)) =
      some ([1, 2], some ⟨0xBEDE, 1, [1, 2, 3, 4]⟩, 28, [[0x65]]) ∧
    answers (given 0x01 [0xA0, 0x60, 0, 3, 0, 0, 0, 0, 0, 0, 0, 1, 0x65, 0x01, 0x02, 0x03, 0x00, 0x00, 0x00, 0x04])
      .header [[0x65, 0x01, 0x02, 0x03]] := by decide

/-- V-H10, V-H11, V-H12, V-H13: padding counts 0, all, one too many, and no byte to hold one. -/
theorem test_padding :
    answers (given 0x01 [0xA0, 0x60, 0, 3, 0, 0, 0, 0, 0, 0, 0, 1, 0x65, 0x00]) .header [[0x65, 0x00]] ∧
    answers (given 0x01 [0xA0, 0x60, 0, 3, 0, 0, 0, 0, 0, 0, 0, 1, 0x65, 0x02]) .header [[]] ∧
    answers (given 0x01 [0xA0, 0x60, 0, 3, 0, 0, 0, 0, 0, 0, 0, 1, 0x65, 0x03]) (.error .paddingOverrun) [] ∧
    answers (given 0x01 [0xA0, 0x60, 0, 3, 0, 0, 0, 0, 0, 0, 0, 1]) (.error .paddingOverrun) [] := by decide

/-- V-H14, V-H16, V-H17, V-H18, V-H19, V-H20: the length errors. -/
theorem test_header_errors :
    answers (given 0x01 (hdr.take 11)) (.error .shortFixedHeader) [] ∧
    answers (given 0x01 ([0x81] ++ hdr.tail ++ [0, 0, 0])) (.error .shortCsrcList) [] ∧
    answers (given 0x01 ([0x90] ++ hdr.tail ++ [0xBE, 0xDE, 0])) (.error .shortExtHeader) [] ∧
    answers (given 0x01 ([0x90] ++ hdr.tail ++ [0xBE, 0xDE, 0, 1, 0, 0, 0])) (.error .shortExtData) [] ∧
    answers (limited 15 (given 0x01 (hdr ++ [0x65, 1, 2]))) .header [[0x65, 1, 2]] ∧
    answers (limited 15 (given 0x01 ([0xB1] ++ hdr.tail ++ [0x65, 1, 2, 3]))) (.error .packetTooLong) [] := by decide

/-- V-D1, V-D9, V-E2 -/
theorem test_extract :
    answers (extractOf []) (.error .emptyPayload) [] ∧
    answers (given 0x02 [0xA0, 0x60, 0, 3, 0, 0, 0, 0, 0, 0, 0, 1, 0x65, 0x01, 0x02, 0x03, 0x00, 0x00, 0x00, 0x04])
      .one [[0x65, 0x01, 0x02, 0x03]] ∧
    answers (given 0x02 [0xA0, 0x60, 0, 3, 0, 0, 0, 0, 0, 0, 0, 1, 0x7C, 0x09]) (.error .paddingOverrun) [] := by decide

/-- V-X2 -/
theorem test_illegal : outcome { given 0xFF [] with fuA := .accumulating [0x65, 0x11] } =
    some ⟨.error .illegalCommand, [], .accumulating [0x65, 0x11], .idle⟩ := by decide

/-- I14: no command, no transition. -/
theorem test_no_command : step State.reset = .fault .noCommand := rfl

/-! ## Reserved and single NAL units (V-D3 to V-D8) -/

theorem test_reservedType0 : answers (extractOf [0x00]) .nothingReserved [] := by decide
theorem test_reservedType30To31 : answers (extractOf [0x1F, 0x00, 0x00]) .nothingReserved [] ∧
    answers (extractOf [0x7E]) .nothingReserved [] := by decide
theorem test_singleNalType1 : answers (extractOf [0x61]) .one [[0x61]] := by decide
theorem test_singleNalType2To3 : answers (extractOf [0x42]) .one [[0x42]] := by decide
theorem test_singleNalType4To7 : answers (extractOf [0xE5, 0x01]) .one [[0xE5, 0x01]] := by decide
theorem test_singleNalType8To15 : answers (extractOf [0x09, 0xF0]) .one [[0x09, 0xF0]] := by decide
theorem test_singleNalType16To23 : answers (extractOf [0x17]) .one [[0x17]] := by decide

/-! ## Aggregation packets -/

/-- V-A1, V-A3, V-A4, V-A5, V-A6, V-A6b -/
theorem test_stapA :
    answers (extractOf [0x78, 0, 2, 0x67, 0x42, 0, 3, 0x68, 0xCE, 0x3C]) .seq [[0x67, 0x42], [0x68, 0xCE, 0x3C]] ∧
    answers (extractOf [0x78, 0]) (.error .truncatedPrefix) [] ∧
    answers (extractOf [0x78, 0, 0]) (.error .emptyEntry) [] ∧
    answers (extractOf [0x78, 0, 1, 9, 0]) (.error .trailingBytes) [] ∧
    answers (extractOf [0x78, 0, 5, 0x67, 0x42]) (.error .entryOverrun) [] ∧
    answers (extractOf [0x78, 0, 1, 0x78, 0, 1, 0xFC]) .seq [[0x78], [0xFC]] := by decide

/-- V-A7, V-A8, V-A8b -/
theorem test_stapB_doc :
    answers (extractOf [0x79, 0x12, 0x34, 0, 0x0A, 0, 1, 0, 2, 0x67, 0x42, 0, 2, 0, 1, 0x68]) .seq [[0x67, 0x42], [0x68]] ∧
    packetMeta (extractOf [0x79, 0x12, 0x34, 0, 0x0A, 0, 1, 0, 2, 0x67, 0x42, 0, 2, 0, 1, 0x68]) =
      some (some 0x1234, some 0x000A) ∧
    entries (extractOf [0x79, 0x12, 0x34, 0, 0x0A, 0, 1, 0, 2, 0x67, 0x42, 0, 2, 0, 1, 0x68]) =
      some [⟨some 1, some 0x0A⟩, ⟨some 2, some 0x0A⟩] ∧
    answers (extractOf [0x79, 0x12, 0x34]) (.error .shortAggHeader) [] ∧
    answers (extractOf [0x79, 0x12, 0x34, 0, 0x0A, 0, 1, 0]) (.error .truncatedPrefix) [] := by decide

/-- V-A14, V-A15 -/
theorem test_stapB_rfc6184 :
    answers (rfc (extractOf [0x79, 0xFF, 0xFF, 0, 1, 9, 0, 1, 0x0A])) .seq [[9], [0x0A]] ∧
    packetMeta (rfc (extractOf [0x79, 0xFF, 0xFF, 0, 1, 9, 0, 1, 0x0A])) = some (some 0xFFFF, none) ∧
    entries (rfc (extractOf [0x79, 0xFF, 0xFF, 0, 1, 9, 0, 1, 0x0A])) = some [⟨some 0xFFFF, none⟩, ⟨some 0, none⟩] ∧
    answers (rfc (extractOf [0x79, 0x12])) (.error .shortAggHeader) [] := by decide

/-- V-A9, V-A10, V-A10c -/
theorem test_mtap16_doc :
    answers (extractOf [0x7A, 0, 5, 0, 0x10, 0, 2, 0x65, 0x88, 0, 6, 0, 0x20, 0, 1, 0x41]) .seq [[0x65, 0x88], [0x41]] ∧
    entries (extractOf [0x7A, 0, 5, 0, 0x10, 0, 2, 0x65, 0x88, 0, 6, 0, 0x20, 0, 1, 0x41]) =
      some [⟨some 5, some 0x10⟩, ⟨some 6, some 0x20⟩] ∧
    answers (extractOf [0x7A, 0, 5, 0, 0x10, 0, 1, 0x65, 0]) (.error .trailingBytes) [] ∧
    answers (extractOf [0x7A, 0, 5, 0, 0x10, 0, 0]) (.error .emptyEntry) [] := by decide

/-- V-A16, V-A17, V-A18 -/
theorem test_mtap16_rfc6184 :
    answers (rfc (extractOf [0x7A, 0, 0x10, 0, 5, 2, 0, 0x20, 0x65, 0x88])) .seq [[0x65, 0x88]] ∧
    entries (rfc (extractOf [0x7A, 0, 0x10, 0, 5, 2, 0, 0x20, 0x65, 0x88])) = some [⟨some 0x12, some 0x20⟩] ∧
    answers (rfc (extractOf [0x7A, 0, 0x10, 0, 3, 2, 0, 0x20])) (.error .emptyEntry) [] ∧
    answers (rfc (extractOf [0x7A, 0, 0x10, 0, 6, 2, 0, 0x20, 0x65, 0x88])) (.error .entryOverrun) [] := by decide

/-- V-A11, V-A12 -/
theorem test_mtap24_doc :
    answers (extractOf [0x7B, 0, 7, 1, 2, 3, 0, 1, 0x65]) .seq [[0x65]] ∧
    entries (extractOf [0x7B, 0, 7, 1, 2, 3, 0, 1, 0x65]) = some [⟨some 7, some 0x010203⟩] ∧
    answers (extractOf [0x7B, 0, 7, 1, 2, 3, 0, 4, 0x65]) (.error .entryOverrun) [] := by decide

/-- V-A19 -/
theorem test_mtap24_rfc6184 :
    answers (rfc (extractOf [0x7B, 0xFF, 0xFF, 0, 5, 3, 1, 2, 3, 0x65])) .seq [[0x65]] ∧
    packetMeta (rfc (extractOf [0x7B, 0xFF, 0xFF, 0, 5, 3, 1, 2, 3, 0x65])) = some (some 0xFFFF, none) ∧
    entries (rfc (extractOf [0x7B, 0xFF, 0xFF, 0, 5, 3, 1, 2, 3, 0x65])) = some [⟨some 2, some 0x010203⟩] := by decide

/-! ## Fragmentation units -/

/-- V-F4 -/
theorem test_fuA : outcome (extractIn (.accumulating [0x65, 0x11]) .idle [0x7C]) =
    some ⟨.error .shortFuHeader, [], .accumulating [0x65, 0x11], .idle⟩ := by decide

/-- V-F11 and V-F13a -/
theorem test_fuB : answers (extractOf [0x7D, 0x85, 0, 1]) (.error .shortFuHeader) [] ∧
    answers (rfc (extractOf [0x7D, 0x85, 0])) (.error .shortFuHeader) [] := by decide

/-- V-F6's second start, V-F7's header byte, V-F8a and V-F8b's cap -/
theorem test_fuAStart :
    outcome (extractIn (.accumulating [0x65, 0xAA]) .idle [0x7C, 0x85, 0xBB]) =
      some ⟨.nothingAbsorbed, [], .accumulating [0x65, 0xBB], .idle⟩ ∧
    outcome (extractOf [0xFC, 0x81, 0x01]) = some ⟨.nothingAbsorbed, [], .accumulating [0xE1, 0x01], .idle⟩ ∧
    outcome (capped 4 (extractOf [0x7C, 0x85, 0x11, 0x22, 0x33])) =
      some ⟨.nothingAbsorbed, [], .accumulating [0x65, 0x11, 0x22, 0x33], .idle⟩ ∧
    outcome (capped 4 (extractIn (.accumulating [0x65, 0x11]) .idle [0x7C, 0x85, 0x11, 0x22, 0x33, 0x44])) =
      some ⟨.error .fragmentTooLarge, [], .idle, .idle⟩ := by decide

/-- V-F1's middle, V-F9's empty middle, V-F8's cap, V-F15 -/
theorem test_fuAMiddle :
    outcome (extractIn (.accumulating [0x65, 0x11, 0x22]) .idle [0x7C, 0x05, 0x33]) =
      some ⟨.nothingAbsorbed, [], .accumulating [0x65, 0x11, 0x22, 0x33], .idle⟩ ∧
    outcome (extractIn (.accumulating [0x65, 0x11]) .idle [0x7C, 0x05]) =
      some ⟨.nothingAbsorbed, [], .accumulating [0x65, 0x11], .idle⟩ ∧
    outcome (capped 4 (extractIn (.accumulating [0x65, 0x11, 0x22, 0x33]) .idle [0x7C, 0x05, 0x44])) =
      some ⟨.error .fragmentTooLarge, [], .idle, .idle⟩ ∧
    outcome (extractIn .idle (.accumulating [0x67, 0x21]) [0x7C, 0x05, 0x33]) =
      some ⟨.error .orphanedFragment, [], .idle, .accumulating [0x67, 0x21]⟩ := by decide

/-- V-F7a's end, V-F3's, P5's fourth command -/
theorem test_fuAEnd :
    outcome (extractIn (.accumulating [0x7F, 0x01]) .idle [0x7C, 0x65, 0x02]) =
      some ⟨.one, [[0x7F, 0x01, 0x02]], .idle, .idle⟩ ∧
    answers (extractOf [0x7C, 0x45, 0x33]) (.error .orphanedFragment) [] ∧
    outcome (capped 4 (extractIn (.accumulating [0x65, 0x05]) .idle [0x7C, 0x45, 0x06, 0x07])) =
      some ⟨.one, [[0x65, 0x05, 0x06, 0x07]], .idle, .idle⟩ := by decide

/-- V-F2a, V-F8c -/
theorem test_fuAStartEnd :
    outcome (extractIn (.accumulating [0x65, 0x11]) .idle [0x7C, 0xC5, 0xAA]) =
      some ⟨.one, [[0x65, 0xAA]], .idle, .idle⟩ ∧
    answers (capped 4 (extractOf [0x7C, 0xC5, 0x11, 0x22, 0x33, 0x44])) (.error .fragmentTooLarge) [] := by decide

/-- V-F12's FU-B start, V-F11a, V-F13 -/
theorem test_fuBStart :
    outcome (extractIn (.accumulating [0x65, 0x11]) .idle [0x7D, 0x87, 0, 1, 0, 0x21]) =
      some ⟨.nothingAbsorbed, [], .accumulating [0x65, 0x11], .accumulating [0x67, 0x21]⟩ ∧
    outcome (extractOf [0x7D, 0x85, 0, 1, 0]) = some ⟨.nothingAbsorbed, [], .idle, .accumulating [0x65]⟩ ∧
    outcome (rfc (extractOf [0x7D, 0x85, 0, 1, 0xAA, 0xBB])) =
      some ⟨.nothingAbsorbed, [], .idle, .accumulating [0x65, 0xAA, 0xBB]⟩ := by decide

/-- R234, by hand: FU-B's fragment starts at offset 5. -/
theorem test_fuBMiddle : outcome (extractIn .idle (.accumulating [0x65, 0xAA]) [0x7D, 0x05, 0, 2, 0, 0xBB]) =
    some ⟨.nothingAbsorbed, [], .idle, .accumulating [0x65, 0xAA, 0xBB]⟩ := by decide

/-- V-F10's end, P6's fourth command -/
theorem test_fuBEnd :
    outcome (extractIn .idle (.accumulating [0x65, 0xAA, 0xBB]) [0x7D, 0x45, 0, 2, 0, 0xCC]) =
      some ⟨.one, [[0x65, 0xAA, 0xBB, 0xCC]], .idle, .idle⟩ ∧
    outcome (rfc (extractIn .idle (.accumulating [0x65, 0xAA, 0xBB]) [0x7D, 0x45, 1, 3, 0xDD])) =
      some ⟨.one, [[0x65, 0xAA, 0xBB, 0xDD]], .idle, .idle⟩ := by decide

/-- R236, by hand. -/
theorem test_fuBStartEnd : outcome (extractIn (.accumulating [0x65]) (.accumulating [0x67]) [0x7D, 0xC5, 0, 0, 0, 0xAA]) =
    some ⟨.one, [[0x65, 0xAA]], .accumulating [0x65], .idle⟩ := by decide

/-! ## Well-formedness: a good term, and an ill-formed term for each check -/

/-- A header record with everything: two CSRC words, an extension of one word, two padding bytes. -/
def fullRec : Header :=
  { v := 2, p := true, x := true, cc := 2, m := true, pt := 96, seq := 7, ts := 8, ssrc := 9, csrc := [1, 2],
    ext := some ⟨0xBEDE, 1, [1, 2, 3, 4]⟩, hlen := 28, pad := 2, plEnd := 30 }

theorem test_wellFormed_good : (Instr.singleNalType4To7 fullRec [0x65, 0x01]).wellFormed 32 = true ∧
    (Instr.fuA (hdrRec 1) [0x7C]).wellFormed 1500 = true ∧ (Instr.extract hdr).wellFormed 1500 = true ∧
    (Instr.fuBStart (hdrRec 2) [0x7D, 0x85]).wellFormed 1500 = true := by decide

theorem test_illFormed_csrc : (Instr.singleNalType4To7 { fullRec with csrc := [1] } [0x65, 0x01]).wellFormed 32 = false := by
  decide
theorem test_illFormed_ext :
    (Instr.singleNalType4To7 { fullRec with x := false } [0x65, 0x01]).wellFormed 32 = false ∧
    (Instr.singleNalType4To7 { fullRec with ext := some ⟨0xBEDE, 1, [1, 2, 3]⟩ } [0x65, 0x01]).wellFormed 32 = false ∧
    (Instr.singleNalType1 { hdrRec 1 with x := true } [0x61]).wellFormed 1500 = false := by decide
theorem test_illFormed_bounds :
    (Instr.singleNalType1 { hdrRec 1 with hlen := 16, plEnd := 17 } [0x61]).wellFormed 1500 = false ∧
    (Instr.singleNalType1 (hdrRec 2) [0x61]).wellFormed 1500 = false := by decide
theorem test_illFormed_pad :
    (Instr.singleNalType1 { hdrRec 1 with pad := 1 } [0x61]).wellFormed 1500 = false ∧
    (Instr.singleNalType1 { hdrRec 1 with p := true } [0x61]).wellFormed 1500 = false := by decide
theorem test_illFormed_size : (Instr.singleNalType4To7 fullRec [0x65, 0x01]).wellFormed 31 = false := by decide
theorem test_illFormed_row :
    (Instr.stapA (hdrRec 1) [0x79]).wellFormed 1500 = false ∧ (Instr.stapA (hdrRec 0) []).wellFormed 1500 = false ∧
    (Instr.fuAStart (hdrRec 2) [0x7C, 0xC5]).wellFormed 1500 = false ∧
    (Instr.fuAStart (hdrRec 1) [0x7C]).wellFormed 1500 = false := by decide
theorem test_illFormed_extract : (Instr.extract (hdr ++ [0x61])).wellFormed 1500 = false := by decide
theorem test_illFormed_fuWhole : (Instr.fuA (hdrRec 2) [0x7C, 0x85]).wellFormed 1500 = false ∧
    (Instr.fuB (hdrRec 2) [0x7D, 0x85]).wellFormed 1500 = false := by decide

/-- L1-2's header record. -/
def extRec : Header :=
  { hdrRec 2 with x := true, ext := some ⟨0xBEDE, 2, [1, 2, 3, 4, 5, 6, 7, 8]⟩, hlen := 24, plEnd := 26 }

/-- L1-2, encoded back: the bytes of the vector. -/
theorem test_encode : (encode (.parse hdr)).packet = hdr ∧
    encode (.singleNalType4To7 extRec [0x67, 0x42]) =
      ⟨0x02, [0x90, 0x60, 0, 1, 0, 0, 0, 0x64, 0x12, 0x34, 0x56, 0x78, 0xBE, 0xDE, 0, 2, 1, 2, 3, 4, 5, 6, 7, 8, 0x67, 0x42]⟩ ∧
    encodeAgg .doc .stapA 0x78 0 0 [⟨[0x67, 0x42], 0, 0, 0⟩] = [0x78, 0, 2, 0x67, 0x42] := by decide

/-! ## Witnesses: for each obligation with hypotheses, a state and operands that meet them, at the ends of their ranges -/

/-- An open FU-A run. -/
def openA : State := { State.reset with fuA := .accumulating [0x65, 0x11] }

/-- A unit of `n` bytes; 65535 are the most a 16-bit length can count. -/
def unitOf (n : Nat) : Bytes := List.replicate n 0x67

theorem unitOf_length (n : Nat) : (unitOf n).length = n := List.length_replicate

theorem witness_StepKeepsLegality :
    (extractIn (.accumulating [0x65]) .idle [0x7C, 0x45, 0x22]).Inv = true ∧
    ∃ t, step (extractIn (.accumulating [0x65]) .idle [0x7C, 0x45, 0x22]) = .next t := ⟨by decide, _, rfl⟩

theorem witness_StepRunsDecodedInstruction :
    (extractOf [0x61]).command = some ⟨0x02, hdr ++ [0x61]⟩ ∧
    decode (extractOf [0x61]).params.maxPktLen ⟨0x02, hdr ++ [0x61]⟩ = .ok (.singleNalType1 (hdrRec 1) [0x61]) := ⟨rfl, rfl⟩

theorem witness_StepIsTheCommandItsCodeNames : (given 0x00 []).command = some ⟨0x00, []⟩ ∧
    (given 0x01 hdr).command = some ⟨0x01, hdr⟩ ∧ (given 0x02 hdr).command = some ⟨0x02, hdr⟩ ∧
    (given 0x03 hdr).command = some ⟨0x03, hdr⟩ := ⟨rfl, rfl, rfl, rfl⟩

theorem witness_IllegalCommandChangesNothing :
    ((given 0x03 hdr).command = some ⟨0x03, hdr⟩ ∧ 3 ≤ (0x03#8).toNat) ∧
    ((given 0xFF []).command = some ⟨0xFF, []⟩ ∧ 3 ≤ (0xFF#8).toNat) := by decide

theorem witness_EveryCommandEndsInOneResult :
    State.reset.command = none ∧ (given 0x00 []).command = some ⟨0x00, []⟩ := ⟨rfl, rfl⟩

theorem witness_ResetErasesHistory : openA.params = State.reset.params ∧ openA.command = State.reset.command ∧
    openA.fuA ≠ State.reset.fuA := by decide

theorem witness_DecodeOfEncodeIsTheInstruction : (Instr.singleNalType4To7 fullRec [0x65, 0x01]).wellFormed 32 = true ∧
    (Instr.singleNalType4To7 { fullRec with pad := 0, plEnd := 30 } [0x65, 0x00]).wellFormed 30 = true ∧
    (Instr.fuAEnd (hdrRec 2) [0x7C, 0x45]).wellFormed 14 = true := by decide

theorem witness_ParserReadsBackTheHeader :
    (fullRec.consistent 32 [0x65, 0x01] = true ∧ [0xEE#8].length = fullRec.pad.toNat - 1) ∧
    ((hdrRec 0).consistent 12 [] = true ∧ ([] : Bytes).length = (hdrRec 0).pad.toNat - 1) := by decide

theorem witness_DecodedInstructionsAreWellFormed : decode 14 ⟨0x02, hdr ++ [0x7C, 0x45]⟩ =
    .ok (.fuAEnd (hdrRec 2) [0x7C, 0x45]) := rfl

/-- For HeaderRecordLosesNothing, PayloadIsARangeOfThePacket and HeaderLengthIsBounded. -/
theorem witness_parsePacket : parsePacket 15 (hdr ++ [0x65, 0xAA, 0xBB]) = .ok (hdrRec 3, [0x65, 0xAA, 0xBB]) ∧
    parsePacket 12 hdr = .ok (hdrRec 0, []) ∧ parsePacket 26 (encodePacket extRec [0x67, 0x42]) =
      .ok (extRec, [0x67, 0x42]) := ⟨rfl, rfl, rfl⟩

/-- A payload for each end of each range of TYPE. -/
theorem witness_DispatchMapByType :
    [0x00#8, 0x01, 0x02, 0x03, 0x04, 0x07, 0x08, 0x0F, 0x10, 0x17, 0x18, 0x19, 0x1A, 0x1B, 0x1C, 0x1D, 0x1E, 0x1F, 0xFF].map
      (fun b => memRead [b] 0 1 % 32) = [0, 1, 2, 3, 4, 7, 8, 15, 16, 23, 24, 25, 26, 27, 28, 29, 30, 31, 31] := by decide

/-- Both types with each pair of bits. -/
theorem witness_FuBitsSelectTheSubOperation : ∀ start stop : Bool, ∀ t : Byte, t = 28 ∨ t = 29 →
    2 ≤ [t, BitVec.ofBool start ++ BitVec.ofBool stop ++ 0x25#6].length ∧
    memRead [t, BitVec.ofBool start ++ BitVec.ofBool stop ++ 0x25#6] 1 1 / 128 % 2 = start.toNat ∧
    memRead [t, BitVec.ofBool start ++ BitVec.ofBool stop ++ 0x25#6] 1 1 / 64 % 2 = stop.toNat ∧
    memRead [t, BitVec.ofBool start ++ BitVec.ofBool stop ++ 0x25#6] 0 1 % 32 = t.toNat := by
  rintro start stop t (rfl | rfl) <;> cases start <;> cases stop <;> decide

theorem witness_LengthBoundsAreCheckedFirst :
    (limited 12 State.reset).params.maxPktLen < (hdr ++ [0x61]).length ∧
    ((hdr.take 11).length ≤ (limited 12 State.reset).params.maxPktLen ∧ (hdr.take 11).length < 12) ∧
    (([] : Bytes).length ≤ State.reset.params.maxPktLen ∧ ([] : Bytes).length < 12) := by decide

theorem witness_FirstPacketErrorIsReported :
    packetError 12 (hdr ++ [0x61]) = some .packetTooLong ∧ packetError 1500 (hdr.take 11) = some .shortFixedHeader ∧
    packetError 1500 ([0x81] ++ hdr.tail ++ [0, 0, 0]) = some .shortCsrcList ∧
    packetError 1500 ([0x90] ++ hdr.tail ++ [0xBE, 0xDE, 0]) = some .shortExtHeader ∧
    packetError 1500 ([0x90] ++ hdr.tail ++ [0xBE, 0xDE, 0, 1, 0, 0, 0]) = some .shortExtData ∧
    packetError 1500 ([0xA0] ++ hdr.tail) = some .paddingOverrun ∧
    packetError 1500 ([0xA0] ++ hdr.tail ++ [0x65, 0x03]) = some .paddingOverrun ∧
    (packetError 1500 hdr = none ∧ hlenOf hdr + padOf hdr = hdr.length) ∧
    (packetError 1500 ([0xA0] ++ hdr.tail ++ [0x65, 0x02]) = none ∧
      hlenOf ([0xA0] ++ hdr.tail ++ [0x65, 0x02]) + padOf ([0xA0] ++ hdr.tail ++ [0x65, 0x02]) =
        ([0xA0] ++ hdr.tail ++ [0x65, 0x02]).length) := by decide

/-- Both values of X, CSRC words in the second. -/
theorem witness_ParseAnswersTheHeaderFields :
    (packetError State.reset.params.maxPktLen hdr = none ∧ xOf hdr = 0) ∧
    (packetError State.reset.params.maxPktLen (encodePacket fullRec [0x65, 0x01]) = none ∧
      xOf (encodePacket fullRec [0x65, 0x01]) = 1 ∧ 1 < ccOf (encodePacket fullRec [0x65, 0x01])) := by decide

theorem witness_ParserIgnoresTheMachines : openA.params.maxPktLen = State.reset.params.maxPktLen ∧
    openA.fuA ≠ State.reset.fuA := by decide

theorem witness_ExtractRunsTheSelectedRow :
    extractOperands State.reset.params.maxPktLen (hdr ++ [0x61]) = .ok (hdrRec 1, [0x61]) := rfl

/-- TYPE 1, 23, 0, 30 and 31. -/
theorem witness_ExtractOfSingleNalIsIdentity : ∀ b : Byte, b ∈ [0x61, 0xF7, 0x00, 0x1E, 0xFF] →
    packetError State.reset.params.maxPktLen (hdr ++ [b]) = none ∧
    hlenOf (hdr ++ [b]) + padOf (hdr ++ [b]) < (hdr ++ [b]).length ∧
    memRead (hdr ++ [b]) (hlenOf (hdr ++ [b])) 1 % 32 = b.toNat % 32 := by decide

theorem witness_SingleNalIsEmittedVerbatim : ∃ t : State, t = { openA with
    result := some { status := .one, header := some (hdrRec 1), units := [[0x61]], aggMeta := none } } := ⟨_, rfl⟩

theorem witness_NonFragmentsLeaveTheMachines :
    (Instr.extract (hdr ++ [0x61]) ≠ .reset ∧ fuTypeOf openA.params.maxPktLen (.extract (hdr ++ [0x61])) = none) ∧
    (Instr.parse (hdr ++ [0x7C, 0x45]) ≠ .reset ∧ fuTypeOf openA.params.maxPktLen (.parse (hdr ++ [0x7C, 0x45])) = none) ∧
    (Instr.extract hdr ≠ .reset ∧ fuTypeOf openA.params.maxPktLen (.extract hdr) = none) := by decide

theorem witness_StapAGivesBackItsUnits : ∀ u ∈ [unitOf 65535, [0x67]], 1 ≤ u.length ∧ u.length ≤ 65535 := by
  simp [unitOf_length]

theorem witness_StapBGivesBackItsUnits :
    (∀ e ∈ [AggEntry.mk (unitOf 65535) 0 0 0, ⟨[0x67], 1, 0, 0⟩], 1 ≤ e.unit.length ∧ e.unit.length ≤ 65535) ∧
    State.reset.params.framing = .doc ∧ (rfc State.reset).params.framing = .rfc6184 := by
  simp [unitOf_length, State.reset, Config.resetParams, rfc]

theorem witness_MtapSixteenGivesBackItsUnits :
    (∀ e ∈ [AggEntry.mk (unitOf 65532) 0 0 0xFFFF, ⟨[0x67], 1, 2, 0⟩], 1 ≤ e.unit.length ∧ e.tso.toNat < 65536) ∧
    (State.reset.params.framing = .doc ∧
      ∀ e ∈ [AggEntry.mk (unitOf 65532) 0 0 0xFFFF, ⟨[0x67], 1, 2, 0⟩], e.unit.length ≤ 65535) ∧
    ((rfc State.reset).params.framing = .rfc6184 ∧
      ∀ e ∈ [AggEntry.mk (unitOf 65532) 0 0 0xFFFF, ⟨[0x67], 1, 2, 0⟩], e.unit.length + 3 ≤ 65535) := by
  simp [unitOf_length, State.reset, Config.resetParams, rfc]

theorem witness_MtapTwentyFourGivesBackItsUnits :
    (∀ e ∈ [AggEntry.mk (unitOf 65531) 0 0 0xFFFFFF, ⟨[0x67], 1, 2, 0⟩], 1 ≤ e.unit.length) ∧
    (State.reset.params.framing = .doc ∧
      ∀ e ∈ [AggEntry.mk (unitOf 65531) 0 0 0xFFFFFF, ⟨[0x67], 1, 2, 0⟩], e.unit.length ≤ 65535) ∧
    ((rfc State.reset).params.framing = .rfc6184 ∧
      ∀ e ∈ [AggEntry.mk (unitOf 65531) 0 0 0xFFFFFF, ⟨[0x67], 1, 2, 0⟩], e.unit.length + 4 ≤ 65535) := by
  simp [unitOf_length, State.reset, Config.resetParams, rfc]

/-- For AggSuccessMeansAnEncoding and AggWalkConsumesThePayload: an aggregation that succeeds, with units and without. -/
theorem witness_agg_success :
    (∃ s' r, exec (aggInstr .stapA (hdrRec 4) [0x78, 0, 1, 0x67]) State.reset = .next s' ∧ s'.result = some r ∧
      r.status = .seq ∧ r.units = [[0x67]]) ∧
    (∃ s' r, exec (aggInstr .mtap24 (hdrRec 1) [0x7B]) State.reset = .next s' ∧ s'.result = some r ∧
      r.status = .seq ∧ r.units = []) := ⟨⟨_, _, rfl, rfl, rfl, rfl⟩, ⟨_, _, rfl, rfl, rfl, rfl⟩⟩

theorem witness_AggErrorsEmitNothing :
    ∃ s' r, exec (aggInstr .stapA (hdrRec 5) [0x78, 0, 1, 0x67, 0]) State.reset = .next s' ∧ s'.result = some r ∧
      r.status = .error .trailingBytes := ⟨_, _, rfl, rfl, rfl⟩

/-- Good entries before each kind of bad bytes, under both framings: one byte short of a prefix, a length of 0, a unit one
byte too long. -/
theorem witness_AggRaisesAtTheFirstBadEntry :
    (∀ e ∈ [AggEntry.mk [0x67] 0 0 0],
      1 ≤ e.unit.length ∧ e.unit.length + (aggHdr .rfc6184 .mtap16 - aggPfx .rfc6184 .mtap16) ≤ 65535) ∧
    (1 ≤ [0x00#8].length ∧ [0x00#8].length < aggPfx .rfc6184 .mtap16) ∧
    (1 ≤ [0x00#8, 0, 0, 0, 0].length ∧ [0x00#8, 0, 0, 0, 0].length < aggPfx .doc .mtap16) ∧
    (aggPfx .rfc6184 .mtap16 ≤ [0x00#8, 3].length ∧ entryLen .rfc6184 .mtap16 [0x00#8, 3] 0 = 0) ∧
    (aggPfx .doc .stapA ≤ [0x00#8, 2, 0x67].length ∧ 1 ≤ entryLen .doc .stapA [0x00#8, 2, 0x67] 0 ∧
      [0x00#8, 2, 0x67].length < aggHdr .doc .stapA + entryLen .doc .stapA [0x00#8, 2, 0x67] 0) := by decide

theorem witness_ShortAggregationRaises :
    [0x79#8, 0, 0, 0].length < aggStart State.reset.params.framing .stapB ∧
    [0x7A#8, 0].length < aggStart (rfc State.reset).params.framing .mtap16 := by decide

/-- The shortest start fragment; a cap of one byte takes it, and refuses one more byte. -/
theorem witness_StartFragmentOpensARun :
    (isFragment (.fuAStart (hdrRec 2) [0x7C, 0x85]) .A true false (hdrRec 2) [0x7C, 0x85] ∧
      isFragment (.fuA (hdrRec 2) [0x7C, 0x85]) .A true false (hdrRec 2) [0x7C, 0x85]) ∧
    fuHeaderLen openA.params.framing .A ≤ [0x7C#8, 0x85].length ∧
    capAdmits (.bytes 1) [0x65#8].length = true ∧ capAdmits (.bytes 1) [0x65#8, 0x11].length = false :=
  ⟨⟨.inl rfl, .inr ⟨rfl, rfl, rfl⟩⟩, by decide, by decide, by decide⟩

/-- A middle and an end fragment of an open run. -/
theorem witness_ContinuedRunGrowsAndCloses :
    isFragment (.fuAMiddle (hdrRec 2) [0x7C, 0x05]) .A false false (hdrRec 2) [0x7C, 0x05] ∧
    isFragment (.fuA (hdrRec 2) [0x7C, 0x45]) .A false true (hdrRec 2) [0x7C, 0x45] ∧
    fuHeaderLen openA.params.framing .A ≤ [0x7C#8, 0x05].length ∧ openA.fu .A = .accumulating [0x65, 0x11] :=
  ⟨.inl rfl, .inr ⟨rfl, rfl, rfl⟩, by decide, rfl⟩

theorem witness_StartEndFragmentEmitsAtOnce :
    isFragment (.fuBStartEnd (hdrRec 5) [0x7D, 0xC5, 0, 0, 0]) .B true true (hdrRec 5) [0x7D, 0xC5, 0, 0, 0] ∧
    fuHeaderLen State.reset.params.framing .B ≤ [0x7D#8, 0xC5, 0, 0, 0].length := ⟨.inl rfl, by decide⟩

theorem witness_OrphanedFragmentRaises :
    isFragment (.fuBEnd (hdrRec 4) [0x7D, 0x45, 0, 0]) .B false true (hdrRec 4) [0x7D, 0x45, 0, 0] ∧
    fuHeaderLen (rfc openA).params.framing .B ≤ [0x7D#8, 0x45, 0, 0].length ∧ (rfc openA).fu .B = .idle :=
  ⟨.inl rfl, by decide, rfl⟩

/-- One byte short for each type and framing. -/
theorem witness_ShortFragmentRaises :
    isFragment (.fuA (hdrRec 1) [0x7C]) .A false false (hdrRec 1) [0x7C] ∧
    isFragment (.fuBStart (hdrRec 4) [0x7D, 0x85, 0, 0]) .B true false (hdrRec 4) [0x7D, 0x85, 0, 0] ∧
    [0x7C#8].length < 2 ∧ [0x7D#8, 0x85, 0, 0].length < 5 ∧ [0x7D#8, 0x85, 0].length < 4 :=
  ⟨.inr ⟨rfl, rfl, rfl⟩, .inl rfl, by decide, by decide, by decide⟩

/-- FU-A without skipped bytes, FU-B with three; the cap is met exactly. -/
theorem witness_FragmentedUnitIsReassembled :
    (([] : Bytes).length + 2 = fuHeaderLen State.reset.params.framing .A) ∧
    ([0x00#8, 1, 0].length + 2 = fuHeaderLen State.reset.params.framing .B) ∧
    (∀ m ∈ [(hdrRec 4, ([] : Bytes), [0x33#8])], m.2.1.length + 2 = fuHeaderLen State.reset.params.framing .A) ∧
    [0x11#8, 0x33, 0x44] = [0x11] ++ ([(hdrRec 4, ([] : Bytes), [0x33#8])].flatMap fun m => m.2.2) ++ [0x44] ∧
    capAdmits (capped 4 State.reset).params.fuBufCap ([0x11#8, 0x33, 0x44].length + 1) = true := by decide

theorem witness_OnlyTheOwnMachineChanges :
    (∃ t, exec (.fuAEnd (hdrRec 2) [0x7C, 0x45]) openA = .next t ∧ t.fu .A ≠ openA.fu .A) ∧
    (∃ t, exec .reset openA = .next t ∧ t.fu .A ≠ openA.fu .A) := ⟨⟨_, rfl, by decide⟩, ⟨_, rfl, by decide⟩⟩

theorem witness_TheOtherMachineIsNotRead :
    fuTypeOf openA.params.maxPktLen (.fuBEnd (hdrRec 2) [0x7D, 0x45]) ≠ some .A ∧
    fuTypeOf openA.params.maxPktLen (.parse hdr) ≠ some .A := by decide

/-- An error that changes nothing and the one that idles its machine. -/
theorem witness_ErrorsArePrecise :
    (∃ t r, step (extractIn (.accumulating [0x65]) .idle [0x7C]) = .next t ∧ t.result = some r ∧
      r.status = .error .shortFuHeader) ∧
    (∃ t r, step (capped 1 (extractIn (.accumulating [0x65]) .idle [0x7C, 0x05, 0x22])) = .next t ∧ t.result = some r ∧
      r.status = .error .fragmentTooLarge) := ⟨⟨_, _, rfl, rfl, rfl⟩, ⟨_, _, rfl, rfl, rfl⟩⟩

/-- A unit of the longest packet, and one of a run that meets the cap. -/
theorem witness_EmittedUnitsAreBounded :
    (decode 14 ⟨0x02, hdr ++ [0x61, 0x00]⟩ = .ok (.singleNalType1 (hdrRec 2) [0x61, 0x00]) ∧
      ∃ t r, step (limited 14 (extractOf [0x61, 0x00])) = .next t ∧ t.result = some r ∧ r.units = [[0x61, 0x00]]) ∧
    (∃ t r, step (capped 3 (extractIn (.accumulating [0x65, 0x11]) .idle [0x7C, 0x45, 0x22])) = .next t ∧
      t.result = some r ∧ r.units = [[0x65, 0x11, 0x22]]) := ⟨⟨rfl, _, _, rfl, rfl, rfl⟩, _, _, rfl, rfl, rfl⟩

end Sys2Proof.Tests
end

/-! The command port at power-on, and the completion of every instruction (spec/00_scope.md). -/

namespace Sys2Proof.Machine

/-- `t` ends a command begun in `s`: a result stands, and the parameters (R6) and the command port are those of `s`. -/
structure Completes (s t : State) : Prop where
  result_isSome : ∃ r, t.result = some r
  params_eq : t.params = s.params
  command_eq : t.command = s.command

theorem deliver_completes (r : Result) (s : State) : Completes s (s.deliver r) := ⟨⟨r, rfl⟩, rfl, rfl⟩

theorem raise_completes (e : Reason) (s : State) : Completes s (s.raise e) := deliver_completes (errorResult e) s

/-- A machine may be written before the command ends. -/
theorem Completes.of_setFu {s t : State} {k : FuType} {v : FuState} (h : Completes (s.setFu k v) t) : Completes s t :=
  ⟨h.result_isSome, h.params_eq.trans (setFu_params s k v), h.command_eq.trans (setFu_command s k v)⟩

theorem aggOp_completes (t : AggType) (h : Header) (pl : Bytes) (s : State) : Completes s (aggOp t h pl s) := by
  obtain ⟨e, _, he⟩ | ⟨r, _, _, hr⟩ := aggOp_cases t h pl s
  · exact he ▸ raise_completes e s
  · exact hr ▸ deliver_completes r s

theorem fuStep_completes (k : FuType) (start stop : Bool) (h : Header) (pl : Bytes) (s : State) :
    Completes s (fuStep k start stop h pl s) := by
  obtain ⟨_, short⟩ | ⟨_, ⟨_, _, orphan⟩ | ⟨nb, _, ⟨_, tooLarge⟩ | ⟨_, _, emitted⟩ | ⟨_, _, kept⟩⟩⟩ :=
    fuStep_cases k start stop h pl s
  · exact short ▸ raise_completes _ s
  · exact orphan ▸ raise_completes _ s
  · exact tooLarge ▸ (raise_completes _ _).of_setFu
  · exact emitted ▸ (deliver_completes _ _).of_setFu
  · exact kept ▸ (deliver_completes _ _).of_setFu

theorem fuOp_completes (k : FuType) (h : Header) (pl : Bytes) (s : State) : Completes s (fuOp k h pl s) :=
  fuStep_completes k _ _ h pl s

theorem dispatchNal_completes (h : Header) (pl : Bytes) (s : State) : Completes s (dispatchNal h pl s) := by
  simp only [dispatchNal]
  split_ifs
  · exact deliver_completes _ s
  · exact deliver_completes _ s
  · exact aggOp_completes .stapA h pl s
  · exact aggOp_completes .stapB h pl s
  · exact aggOp_completes .mtap16 h pl s
  · exact aggOp_completes .mtap24 h pl s
  · exact fuOp_completes .A h pl s
  · exact fuOp_completes .B h pl s

theorem execParse_completes (p : Bytes) (s : State) : ∃ t, execParse p s = .next t ∧ Completes s t := by
  unfold execParse
  split
  · exact ⟨_, rfl, raise_completes _ s⟩
  · exact ⟨_, rfl, deliver_completes _ s⟩

theorem execExtract_completes (p : Bytes) (s : State) : ∃ t, execExtract p s = .next t ∧ Completes s t := by
  unfold execExtract
  split
  · exact ⟨_, rfl, raise_completes _ s⟩
  · exact ⟨_, rfl, dispatchNal_completes _ _ s⟩

/-- No instruction stops the machine: an error is a result (R274). -/
theorem exec_completes (i : Instr) (s : State) : ∃ t, exec i s = .next t ∧ Completes s t := by
  cases i with
  | reset => exact ⟨_, rfl, (deliver_completes _ _).of_setFu.of_setFu⟩
  | parse p => exact execParse_completes p s
  | extract p => exact execExtract_completes p s
  | reservedType0 | reservedType30To31 => exact ⟨_, rfl, deliver_completes _ s⟩
  | singleNalType1 | singleNalType2To3 | singleNalType4To7 | singleNalType8To15 | singleNalType16To23 =>
    exact ⟨_, rfl, deliver_completes _ s⟩
  | stapA | stapB | mtap16 | mtap24 => exact ⟨_, rfl, aggOp_completes _ _ _ s⟩
  | fuA | fuB => exact ⟨_, rfl, fuOp_completes _ _ _ s⟩
  | fuAStart | fuAMiddle | fuAEnd | fuAStartEnd | fuBStart | fuBMiddle | fuBEnd | fuBStartEnd =>
    exact ⟨_, rfl, fuStep_completes _ _ _ _ _ s⟩

/-- Settles O9: `exec_completes`, whose case split over the instructions rests on one lemma per shared operation. -/
theorem everyInstructionCompletes : Obligations.EveryInstructionCompletes := by
  intro i s
  obtain ⟨t, ht, ⟨r, hr⟩, hparams, hcommand⟩ := exec_completes i s
  exact ⟨t, r, ht, hr, hparams, hcommand⟩

/-- With no command issued the machine is stuck (93_implementation_defined.md I14; log 2). -/
theorem step_of_no_command {s : State} (h : s.command = none) : step s = .fault .noCommand := by
  simp [step, h]

/-- Settles O2: the fields are those of `State.reset`, and the port it leaves empty stops the step. -/
theorem powerOnPortsAreEmpty : Obligations.PowerOnPortsAreEmpty :=
  ⟨rfl, rfl, step_of_no_command rfl, rfl⟩

end Sys2Proof.Machine

/-! Legal states (R6, R33, R37), what the decoder gives (R36, R98, R99), and which machine an instruction reads and writes
(R41): spec/10_state.md. -/

namespace Sys2Proof

open Machine

/-! ## What the parser gives is consistent (R36, R105, R136) -/

namespace Machine

/-- The record of HeaderParse has the lists its fields announce, and its HLEN is the one they give, inside the packet. -/
theorem headerParse_record {maxLen : Nat} {p : Bytes} {h : Header} (hp : headerParse maxLen p = .ok h) :
    p.length ≤ maxLen ∧ h.csrcOk = true ∧ h.extOk = true ∧ h.hlen = h.lengthOf ∧ h.hlen ≤ p.length := by
  obtain ⟨hmax, _, hcsrc, ⟨hx, rfl⟩ | ⟨hx, e, len, rfl, rfl, hext, rfl⟩⟩ := headerParse_ok hp
  · simp [Header.csrcOk, Header.extOk, Header.lengthOf, fixedHeader, hmax, hx, hcsrc]
  · simp [Header.csrcOk, Header.extOk, Header.lengthOf, fixedHeader, hmax, hx, hext]
    omega

/-- A part of the packet that reaches its end ends with its last byte. -/
theorem getLast?_slice_to_end {p : Bytes} {a : Nat} (ha : a < p.length) :
    (slice p a p.length).getLast? = some (u8 p (p.length - 1)) := by
  rw [slice_to_end, List.getLast?_drop, if_neg (by omega), List.getLast?_eq_getElem?, u8_eq_getElem? (by omega)]

/-- Payload fills in the bounds and the padding count, and no other field of the record. -/
theorem payload_bounds {p pl : Bytes} {h h' : Header} (hlen : h.hlen ≤ p.length) (hp : payload p h = .ok (h', pl)) :
    h' = { h with pad := h'.pad, plEnd := h'.plEnd } ∧ h'.plEnd = h'.hlen + pl.length ∧ h'.padOk pl = true ∧
      h'.plEnd + h'.pad.toNat = p.length := by
  obtain ⟨hpad, rfl, rfl⟩ | ⟨hpad, hne, hN, rfl, rfl⟩ := payload_ok hp
  · simp [Header.padOk, hpad]
    omega
  · refine ⟨rfl, by simp; omega, ?_, by simp; omega⟩
    by_cases h0 : u8 p (p.length - 1) = 0#8
    · simp [Header.padOk, hpad, h0, getLast?_slice_to_end (show h.hlen < p.length by omega)]
    · simp [Header.padOk, hpad, h0]

/-- The record and the payload of a parsed packet belong together. -/
theorem parsePacket_consistent {maxLen : Nat} {p pl : Bytes} {h : Header} (hp : parsePacket maxLen p = .ok (h, pl)) :
    h.consistent maxLen pl = true := by
  obtain ⟨h₀, hparse, hpay⟩ := parsePacket_ok hp
  obtain ⟨hmax, hcsrc, hext, hhlen, hin⟩ := headerParse_record hparse
  obtain ⟨hrec, hend, hpad, hsize⟩ := payload_bounds hin hpay
  rw [consistent_iff]
  refine ⟨?_, ?_, ?_, hend, hpad, by omega⟩ <;> rw [hrec]
  · exact hcsrc
  · exact hext
  · exact hhlen

end Machine

/-! ## The row the decoder selects (R98, R99) -/

/-- The four settings of the start and end bits leave no FU header over. -/
theorem fu16_rows_cover {t : Byte} {pl : Bytes} (ht : rowMatches8 0x1F#8 t (u8 pl 0) = true)
    (h80 : ¬ rowMatches16 (t ++ 0x80#8) (be16 pl 0) = true) (h00 : ¬ rowMatches16 (t ++ 0x00#8) (be16 pl 0) = true)
    (h40 : ¬ rowMatches16 (t ++ 0x40#8) (be16 pl 0) = true) (hC0 : ¬ rowMatches16 (t ++ 0xC0#8) (be16 pl 0) = true) :
    False := by
  obtain ⟨r80, r00, r40, rC0⟩ := startEnd_rows (u8 pl 1)
  simp only [rowMatches16_be16, ht, Bool.true_and, r80, r00, r40, rC0] at h80 h00 h40 hC0
  cases hs : fuS (u8 pl 1) <;> cases he : fuE (u8 pl 1) <;> simp [hs, he] at h80 h00 h40 hC0

theorem wellFormed_ite {c : Prop} [Decidable c] {maxLen : Nat} {i j : Instr} (hi : c → i.wellFormed maxLen = true)
    (hj : ¬ c → j.wellFormed maxLen = true) : (if c then i else j).wellFormed maxLen = true :=
  iteInduction (motive := (Instr.wellFormed maxLen · = true)) hi hj

section
variable {maxLen : Nat} {h : Header} {pl : Bytes}

theorem nal8_wellFormed {mask value : Byte} (hc : h.consistent maxLen pl = true) (hne : pl ≠ [])
    (hrow : rowMatches8 mask value (u8 pl 0) = true) : (h.consistent maxLen pl && matchesNal8 mask value pl) = true := by
  simp [matchesNal8, hc, hrow, Nat.one_le_iff_ne_zero, hne]

theorem fu16_wellFormed {value : BitVec 16} (hc : h.consistent maxLen pl = true) (hlen : ¬ pl.length < 2)
    (hrow : rowMatches16 value (be16 pl 0) = true) : (h.consistent maxLen pl && matchesFu16 value pl) = true := by
  simp [matchesFu16, hc, hrow, Nat.not_lt.mp hlen]

/-- A `nal8` row of a fragmentation type stands for itself when its payload has no second byte (log 5). -/
theorem oneByteFu_wellFormed {value : Byte} (hc : h.consistent maxLen pl = true) (hne : pl ≠ []) (hlen : pl.length < 2)
    (hrow : rowMatches8 0x1F#8 value (u8 pl 0) = true) :
    (h.consistent maxLen pl && matchesNal8 0x1F#8 value pl && pl.length == 1) = true := by
  have hone : pl.length = 1 := by have := List.length_pos_of_ne_nil hne; omega
  rw [nal8_wellFormed hc hne hrow, hone]; rfl

theorem decodeFuA_wellFormed (hc : h.consistent maxLen pl = true) (hne : pl ≠ [])
    (hrow : rowMatches8 0x1F#8 0x1C#8 (u8 pl 0) = true) : (decodeFuA h pl).wellFormed maxLen = true := by
  refine wellFormed_ite (fun hshort => oneByteFu_wellFormed hc hne hshort hrow) fun hlen => ?_
  have fu16 {value : BitVec 16} := fu16_wellFormed (value := value) hc hlen
  exact wellFormed_ite fu16 fun h80 => wellFormed_ite fu16 fun h00 => wellFormed_ite fu16 fun h40 =>
    wellFormed_ite fu16 fun hC0 => (fu16_rows_cover hrow h80 h00 h40 hC0).elim

theorem decodeFuB_wellFormed (hc : h.consistent maxLen pl = true) (hne : pl ≠ [])
    (hrow : rowMatches8 0x1F#8 0x1D#8 (u8 pl 0) = true) : (decodeFuB h pl).wellFormed maxLen = true := by
  refine wellFormed_ite (fun hshort => oneByteFu_wellFormed hc hne hshort hrow) fun hlen => ?_
  have fu16 {value : BitVec 16} := fu16_wellFormed (value := value) hc hlen
  exact wellFormed_ite fu16 fun h80 => wellFormed_ite fu16 fun h00 => wellFormed_ite fu16 fun h40 =>
    wellFormed_ite fu16 fun hC0 => (fu16_rows_cover hrow h80 h00 h40 hC0).elim

/-- Each row is selected by its own mask; the last by what the rows before it leave. -/
theorem decodeNal_wellFormed (hc : h.consistent maxLen pl = true) (hne : pl ≠ []) :
    (decodeNal h pl).wellFormed maxLen = true := by
  have nal8 {mask value : Byte} := nal8_wellFormed (mask := mask) (value := value) hc hne
  refine wellFormed_ite nal8 fun h0 => wellFormed_ite nal8 fun h1 => wellFormed_ite nal8 fun h2 =>
    wellFormed_ite nal8 fun h4 => wellFormed_ite nal8 fun h8 => wellFormed_ite nal8 fun h16 =>
    wellFormed_ite nal8 fun h24 => wellFormed_ite nal8 fun h25 => wellFormed_ite nal8 fun h26 =>
    wellFormed_ite nal8 fun h27 => wellFormed_ite (decodeFuA_wellFormed hc hne) fun h28 =>
    wellFormed_ite (decodeFuB_wellFormed hc hne) fun h29 => nal8 ?_
  obtain ⟨r0, r1, r2, r4, r8, r16, r24, r25, r26, r27, r28, r29, r30⟩ := nal8_rows (u8 pl 0)
  simp only [r0, r1, r2, r4, r8, r16, r24, r25, r26, r27, r28, r29, r30, decide_eq_true_eq]
    at h0 h1 h2 h4 h8 h16 h24 h25 h26 h27 h28 h29 ⊢
  omega

end

/-- What the decoder answers, by the command's code (R91, R172). -/
theorem decode_ok {maxLen : Nat} {c : Command} {i : Instr} (hd : decode maxLen c = .ok i) :
    i = .reset ∨ i = .parse c.packet ∨
      (∃ e, extractOperands maxLen c.packet = .error e ∧ i = .extract c.packet) ∨
      ∃ h pl, extractOperands maxLen c.packet = .ok (h, pl) ∧ i = decodeNal h pl := by
  simp only [decode] at hd
  split_ifs at hd
  · cases hd; exact .inl rfl
  · cases hd; exact .inr (.inl rfl)
  · split at hd <;> cases hd
    · exact .inr (.inr (.inl ⟨_, by assumption, rfl⟩))
    · exact .inr (.inr (.inr ⟨_, _, by assumption, rfl⟩))

/-- Settles O14: a RESET, a PARSE and an EXTRACT that raises are well formed by themselves; every other instruction is the
row of a parsed packet's payload. -/
theorem decodedInstructionsAreWellFormed : Obligations.DecodedInstructionsAreWellFormed := by
  intro maxLen c i hd
  obtain rfl | rfl | ⟨e, he, rfl⟩ | ⟨h, pl, hop, rfl⟩ := decode_ok hd
  · rfl
  · rfl
  · simp [Instr.wellFormed, he]
  · obtain ⟨hp, hne⟩ := extractOperands_ok_iff.mp hop
    exact decodeNal_wellFormed (parsePacket_consistent hp) hne

end Sys2Proof

namespace Sys2Proof.Machine

/-! ## Legal states (R6, R33, R37) -/

/-- `State.Inv` for both machines at once. -/
theorem inv_iff {s : State} :
    s.Inv = true ↔ s.params.legal = true ∧ (∀ k, fuStateOk s.params.fuBufCap (s.fu k) = true) ∧
      ∀ r, s.result = some r → resultShapeOk r = true := by
  have machines : (∀ k, fuStateOk s.params.fuBufCap (s.fu k) = true) ↔
      fuStateOk s.params.fuBufCap s.fuA = true ∧ fuStateOk s.params.fuBufCap s.fuB = true :=
    ⟨fun h => ⟨h .A, h .B⟩, fun h k => by cases k <;> simp [h]⟩
  rw [machines]
  cases hr : s.result <;> simp [State.Inv, hr, and_assoc]

theorem inv_deliver {s : State} {r : Result} (hs : s.Inv = true) (hr : resultShapeOk r = true) :
    (s.deliver r).Inv = true := by
  obtain ⟨hparams, hfu, _⟩ := inv_iff.mp hs
  exact inv_iff.mpr ⟨hparams, by simpa using hfu, by simpa using hr⟩

/-- An error result has the shape R270 gives it. -/
theorem inv_raise {s : State} (e : Reason) (hs : s.Inv = true) : (s.raise e).Inv = true := inv_deliver hs rfl

theorem inv_takeCommand {s : State} (hs : s.Inv = true) : s.takeCommand.Inv = true := hs

theorem inv_setFu {s : State} {v : FuState} (k : FuType) (hs : s.Inv = true)
    (hv : fuStateOk s.params.fuBufCap v = true) : (s.setFu k v).Inv = true := by
  obtain ⟨hparams, hfu, hres⟩ := inv_iff.mp hs
  refine inv_iff.mpr ⟨by simpa using hparams, fun j => ?_, by simpa using hres⟩
  by_cases hj : j = k
  · subst hj; simpa using hv
  · simpa [fu_setFu_of_ne _ _ _ hj] using hfu j

theorem inv_setFu_idle {s : State} (k : FuType) (hs : s.Inv = true) : (s.setFu k .idle).Inv = true :=
  inv_setFu k hs rfl

/-! ## Every instruction keeps the state legal -/

/-- The walk only emits entries of at least one byte (R190). -/
theorem aggLoop_units_nonempty {f : Framing} {t : AggType} {pl : Bytes} {pdon ptso : Option (BitVec 16)} :
    ∀ {fuel o i : Nat} {es : List (Bytes × EntryMeta)}, aggLoop f t pl pdon ptso fuel o i = .ok es →
      ∀ e ∈ es, e.1 ≠ [] := by
  intro fuel
  induction fuel with
  | zero => intro o i es h; cases h; simp
  | succ n ih =>
    intro o i es h
    by_cases ho : o < pl.length
    · obtain ⟨_, bad⟩ | ⟨_, _, bad⟩ | ⟨_, _, _, bad⟩ | ⟨hlen, hin, good⟩ :=
        aggLoop_entry (f := f) (t := t) (pdon := pdon) (ptso := ptso) (fuel := n) (i := i) ho
      · rw [bad] at h; cases h
      · rw [bad] at h; cases h
      · rw [bad] at h; cases h
      · rw [good] at h
        split at h <;> cases h
        next rest hrest =>
        have unit_ne : slice pl (o + aggHdr f t) (o + aggHdr f t + entryLen f t pl o) ≠ [] := by
          apply List.ne_nil_of_length_pos
          rw [slice_length]
          omega
        simpa [unit_ne] using ih hrest
    · rw [aggLoop_at_end (by omega)] at h; cases h; simp

theorem aggWalk_shape {f : Framing} {t : AggType} {h : Header} {pl : Bytes} {r : Result}
    (hw : aggWalk f t h pl = .ok r) : resultShapeOk r = true := by
  obtain ⟨_, es, hes, rfl⟩ := aggWalk_ok hw
  simpa [resultShapeOk] using fun u m hm => aggLoop_units_nonempty hes (u, m) hm

theorem aggOp_inv {s : State} (t : AggType) (h : Header) (pl : Bytes) (hs : s.Inv = true) :
    (aggOp t h pl s).Inv = true := by
  obtain ⟨e, _, he⟩ | ⟨r, hw, _, hr⟩ := aggOp_cases t h pl s
  · exact he ▸ inv_raise e hs
  · exact hr ▸ inv_deliver hs (aggWalk_shape hw)

/-- A buffer seeded by a header byte, or grown from a legal run, is not empty (R33). -/
theorem fuNextBuffer_nonempty {c : BufCap} {start : Bool} {prior : FuState} {pl frag nb : Bytes}
    (hprior : fuStateOk c prior = true) (hn : fuNextBuffer start prior pl frag = .ok nb) : nb ≠ [] := by
  obtain ⟨_, rfl⟩ | ⟨_, buf, rfl, rfl⟩ := fuNextBuffer_ok hn
  · exact List.cons_ne_nil _ _
  · have hlen : 1 ≤ buf.length ∧ capAdmits c buf.length = true := by simpa [fuStateOk] using hprior
    exact List.append_ne_nil_of_left_ne_nil (List.ne_nil_of_length_pos hlen.1) frag

theorem fuStep_inv {s : State} (k : FuType) (start stop : Bool) (h : Header) (pl : Bytes) (hs : s.Inv = true) :
    (fuStep k start stop h pl s).Inv = true := by
  have idle := inv_setFu_idle k hs
  obtain ⟨_, short⟩ | ⟨_, ⟨_, _, orphan⟩ | ⟨nb, hnb, outcome⟩⟩ := fuStep_cases k start stop h pl s
  · exact short ▸ inv_raise _ hs
  · exact orphan ▸ inv_raise _ hs
  obtain ⟨_, hfu, _⟩ := inv_iff.mp hs
  have hne : nb ≠ [] := fuNextBuffer_nonempty (hfu k) hnb
  obtain ⟨_, tooLarge⟩ | ⟨_, _, emitted⟩ | ⟨hcap, _, kept⟩ := outcome
  · exact tooLarge ▸ inv_raise _ idle
  · exact emitted ▸ inv_deliver idle (by simpa [resultShapeOk] using hne)
  · have hrun : fuStateOk s.params.fuBufCap (.accumulating nb) = true := by
      simpa [fuStateOk, hcap, Nat.one_le_iff_ne_zero] using hne
    exact kept ▸ inv_deliver (inv_setFu k hs hrun) rfl

theorem execParse_inv {p : Bytes} {s t : State} (hs : s.Inv = true) (ht : execParse p s = .next t) :
    t.Inv = true := by
  unfold execParse at ht
  split at ht <;> cases ht
  · exact inv_raise _ hs
  · exact inv_deliver hs rfl

/-- A well-formed EXTRACT that stands for itself raises (log 5). -/
theorem execExtract_of_wellFormed {p : Bytes} {s : State}
    (hw : (Instr.extract p).wellFormed s.params.maxPktLen = true) : ∃ e, execExtract p s = .next (s.raise e) := by
  unfold execExtract
  simp only [Instr.wellFormed] at hw
  split at hw
  · cases hw
  · next e he => exact ⟨e, by rw [he]⟩

/-- A unit is emitted verbatim, so it must not be empty (R14, R175). -/
theorem singleNalOp_inv {h : Header} {maxLen : Nat} {mask value : Byte} {pl : Bytes} {s : State} (hs : s.Inv = true)
    (hw : (h.consistent maxLen pl && matchesNal8 mask value pl) = true) : (singleNalOp h pl s).Inv = true := by
  have hne : pl ≠ [] := by
    simp only [Bool.and_eq_true, matchesNal8, decide_eq_true_eq] at hw
    exact List.ne_nil_of_length_pos hw.2.1
  exact inv_deliver hs (by simpa [resultShapeOk] using hne)

/-- Every instruction keeps a legal state legal. That it is well formed matters where its payload becomes a unit. -/
theorem exec_inv {i : Instr} {s t : State} (hw : i.wellFormed s.params.maxPktLen = true) (hs : s.Inv = true)
    (ht : exec i s = .next t) : t.Inv = true := by
  cases i with
  | reset => cases ht; exact inv_deliver (inv_setFu_idle .B (inv_setFu_idle .A hs)) rfl
  | parse p => exact execParse_inv hs ht
  | extract p =>
    obtain ⟨e, he⟩ := execExtract_of_wellFormed hw
    cases he.symm.trans ht
    exact inv_raise e hs
  | reservedType0 | reservedType30To31 => cases ht; exact inv_deliver hs rfl
  | singleNalType1 | singleNalType2To3 | singleNalType4To7 | singleNalType8To15 | singleNalType16To23 =>
    cases ht; exact singleNalOp_inv hs hw
  | stapA | stapB | mtap16 | mtap24 => cases ht; exact aggOp_inv _ _ _ hs
  | fuA | fuB => cases ht; exact fuStep_inv _ _ _ _ _ hs
  | fuAStart | fuAMiddle | fuAEnd | fuAStartEnd | fuBStart | fuBMiddle | fuBEnd | fuBStartEnd =>
    cases ht; exact fuStep_inv _ _ _ _ _ hs

/-- A step that answers a next state took a command: an undefined code raised, or the decoded instruction ran (R170). -/
theorem step_next {s t : State} (ht : step s = .next t) :
    ∃ c, s.command = some c ∧ ((∃ e, decode s.params.maxPktLen c = .error e ∧ t = illegalCommand s.takeCommand) ∨
      ∃ i, decode s.params.maxPktLen c = .ok i ∧ exec i s.takeCommand = .next t) := by
  unfold step at ht
  split at ht
  · cases ht
  next c hc =>
  refine ⟨c, hc, ?_⟩
  split at ht
  · next e he => cases ht; exact .inl ⟨e, he, rfl⟩
  · next i hi => exact .inr ⟨i, hi, ht⟩

/-- Settles O4: what a step runs is well formed, and a well-formed instruction keeps the state legal. -/
theorem stepKeepsLegality : Obligations.StepKeepsLegality := by
  intro s t hs ht
  obtain ⟨c, _, ⟨_, _, rfl⟩ | ⟨i, hi, hexec⟩⟩ := step_next ht
  · exact inv_raise .illegalCommand (inv_takeCommand hs)
  · exact exec_inv (s := s.takeCommand) (decodedInstructionsAreWellFormed _ _ _ hi) (inv_takeCommand hs) hexec

/-- Settles O3: idle machines, no result, and the parameters of log 1. -/
theorem resetStateIsLegal : Obligations.ResetStateIsLegal :=
  inv_iff.mpr ⟨by decide, fun k => by cases k <;> rfl, fun _ h => nomatch h⟩

/-! ## The machine that is not the instruction's own (R41) -/

theorem setFu_fu_self (s : State) (k : FuType) : s.setFu k (s.fu k) = s := by cases k <;> rfl

theorem setFu_comm {j k : FuType} (hj : j ≠ k) (s : State) (v w : FuState) :
    (s.setFu k v).setFu j w = (s.setFu j w).setFu k v := by
  cases j <;> cases k
  · exact absurd rfl hj
  · rfl
  · rfl
  · exact absurd rfl hj

theorem deliver_setFu (s : State) (k : FuType) (v : FuState) (r : Result) :
    (s.setFu k v).deliver r = (s.deliver r).setFu k v := by cases k <;> rfl

theorem raise_setFu (s : State) (k : FuType) (v : FuState) (e : Reason) :
    (s.setFu k v).raise e = (s.raise e).setFu k v := deliver_setFu s k v (errorResult e)

theorem aggOp_setFu (t : AggType) (h : Header) (pl : Bytes) (s : State) (k : FuType) (v : FuState) :
    aggOp t h pl (s.setFu k v) = (aggOp t h pl s).setFu k v := by
  simp only [aggOp, setFu_params]
  split
  · exact raise_setFu s k v _
  · exact deliver_setFu s k v _

theorem fuFinish_setFu {j k : FuType} (hj : j ≠ k) (stop : Bool) (h : Header) (nb : Bytes) (s : State) (v : FuState) :
    fuFinish j stop h nb (s.setFu k v) = (fuFinish j stop h nb s).setFu k v := by
  simp only [fuFinish, setFu_params, setFu_comm hj, deliver_setFu _ k, raise_setFu _ k]
  split_ifs <;> rfl

theorem fuStep_setFu {j k : FuType} (hj : j ≠ k) (start stop : Bool) (h : Header) (pl : Bytes) (s : State)
    (v : FuState) : fuStep j start stop h pl (s.setFu k v) = (fuStep j start stop h pl s).setFu k v := by
  simp only [fuStep, setFu_params, fu_setFu_of_ne _ _ _ hj]
  split_ifs
  · exact raise_setFu s k v _
  · split
    · exact raise_setFu s k v _
    · exact fuFinish_setFu hj stop h _ s v

/-- EXTRACT's dispatch reaches the machine of the payload's own type, and no other (R172). -/
theorem dispatchNal_setFu {k : FuType} {pl : Bytes} (hk : fuTypeOfPayload pl ≠ some k) (h : Header) (s : State)
    (v : FuState) : dispatchNal h pl (s.setFu k v) = (dispatchNal h pl s).setFu k v := by
  have hlt : (nalType (u8 pl 0)).toNat < 32 := (nalType (u8 pl 0)).isLt
  simp only [dispatchNal]
  split_ifs with hres hsingle h24 h25 h26 h27 h28
  · exact deliver_setFu s k v _
  · exact deliver_setFu s k v _
  · exact aggOp_setFu .stapA h pl s k v
  · exact aggOp_setFu .stapB h pl s k v
  · exact aggOp_setFu .mtap16 h pl s k v
  · exact aggOp_setFu .mtap24 h pl s k v
  · have hj : FuType.A ≠ k := by simpa [fuTypeOfPayload, h28] using hk
    exact fuStep_setFu hj _ _ h pl s v
  · have h29 : (nalType (u8 pl 0)).toNat = 29 := by omega
    have hj : FuType.B ≠ k := by simpa [fuTypeOfPayload, h29] using hk
    exact fuStep_setFu hj _ _ h pl s v

theorem execParse_setFu {p : Bytes} {s t : State} (k : FuType) (v : FuState) (ht : execParse p s = .next t) :
    execParse p (s.setFu k v) = .next (t.setFu k v) := by
  simp only [execParse, setFu_params] at ht ⊢
  split at ht <;> cases ht
  · rw [raise_setFu]
  · rw [deliver_setFu]

theorem execExtract_setFu {p : Bytes} {s t : State} {k : FuType} (hk : fuTypeOf s.params.maxPktLen (.extract p) ≠ some k)
    (v : FuState) (ht : execExtract p s = .next t) : execExtract p (s.setFu k v) = .next (t.setFu k v) := by
  simp only [fuTypeOf] at hk
  simp only [execExtract, setFu_params] at ht ⊢
  split at ht <;> cases ht
  · rw [raise_setFu]
  · next h pl hop =>
    rw [hop] at hk
    rw [dispatchNal_setFu hk]

/-- An instruction that is not RESET commutes with writing a machine that is not its own: it neither reads nor writes it. -/
theorem exec_setFu {i : Instr} {s t : State} {k : FuType} (hreset : i ≠ .reset)
    (hk : fuTypeOf s.params.maxPktLen i ≠ some k) (v : FuState) (ht : exec i s = .next t) :
    exec i (s.setFu k v) = .next (t.setFu k v) := by
  cases i with
  | reset => exact absurd rfl hreset
  | parse p => exact execParse_setFu k v ht
  | extract p => exact execExtract_setFu hk v ht
  | reservedType0 | reservedType30To31 => cases ht; exact congrArg _ (deliver_setFu s k v _)
  | singleNalType1 | singleNalType2To3 | singleNalType4To7 | singleNalType8To15 | singleNalType16To23 =>
    cases ht; exact congrArg _ (deliver_setFu s k v _)
  | stapA | stapB | mtap16 | mtap24 => cases ht; exact congrArg _ (aggOp_setFu _ _ _ s k v)
  | fuA | fuB => cases ht; exact congrArg _ (fuStep_setFu (by simpa [fuTypeOf] using hk) _ _ _ _ s v)
  | fuAStart | fuAMiddle | fuAEnd | fuAStartEnd | fuBStart | fuBMiddle | fuBEnd | fuBStartEnd =>
    cases ht; exact congrArg _ (fuStep_setFu (by simpa [fuTypeOf] using hk) _ _ _ _ s v)

/-- Settles O46: writing back what the machine held changes nothing before the instruction, so nothing after it. -/
theorem onlyTheOwnMachineChanges : Obligations.OnlyTheOwnMachineChanges := by
  intro i s t k ht hchanged
  by_contra hother
  obtain ⟨hreset, hk⟩ := not_or.mp hother
  have hsame := exec_setFu hreset hk (s.fu k) ht
  rw [setFu_fu_self, ht] at hsame
  have hkept : t = t.setFu k (s.fu k) := by injection hsame
  exact hchanged (hkept ▸ fu_setFu_self t k (s.fu k))

theorem FuType.other_ne (k : FuType) : k.other ≠ k := by cases k <;> decide

/-- RESET idles both machines, whatever one of them held (R171). -/
theorem execReset_setFu (s : State) (k : FuType) (v : FuState) : execReset (s.setFu k v) = execReset s := by
  cases k <;> rfl

/-- Settles O47: RESET forgets the machine, and any other instruction commutes with writing it. -/
theorem theOtherMachineIsNotRead : Obligations.TheOtherMachineIsNotRead := by
  intro i s k v hk
  obtain ⟨t, ht, -⟩ := exec_completes i s
  by_cases hreset : i = .reset
  · subst hreset
    exact ⟨t, t, ht, (execReset_setFu s k v).trans ht, rfl, rfl⟩
  · exact ⟨t, t.setFu k v, ht, exec_setFu hreset hk v ht, (setFu_result t k v).symm,
      (fu_setFu_of_ne t k v k.other_ne).symm⟩

/-! ## Status codes (R37, R271) -/

/-- Every reason but the orphan and the undefined code is a malformed packet. -/
theorem reasonKind_eq_malformedPacket_iff (r : Reason) :
    reasonKind r = .malformedPacket ↔ r ≠ .orphanedFragment ∧ r ≠ .illegalCommand := by
  cases r <;> decide

/-- Settles O49: both code tables row by row, and the kinds reason by reason. -/
theorem statusCodesAreTheTables : Obligations.StatusCodesAreTheTables :=
  ⟨rfl, rfl, reasonKind_eq_malformedPacket_iff⟩

end Sys2Proof.Machine

/-! The payload as a range of the packet's bytes (R62, R69, R136): spec/20_memory.md. -/

namespace Sys2Proof.Machine

/-- HLEN counts at least the twelve bytes of the fixed header (R105). -/
theorem twelve_le_lengthOf (h : Header) : 12 ≤ h.lengthOf := by
  rw [Header.lengthOf, Nat.add_assoc]
  exact Nat.le_add_right 12 _

/-- The payload is the packet's bytes from HLEN to PL_END (R136). -/
theorem payload_slice {p pl : Bytes} {h h' : Header} (hp : payload p h = .ok (h', pl)) :
    pl = slice p h'.hlen h'.plEnd := by
  obtain ⟨_, rfl, rfl⟩ | ⟨_, _, _, rfl, rfl⟩ := payload_ok hp <;> rfl

/-- HLEN, the payload and the padding cover a parsed packet, which MAX_PKT_LEN bounds (R131, R136). -/
theorem parsePacket_range {maxLen : Nat} {p pl : Bytes} {h : Header} (hp : parsePacket maxLen p = .ok (h, pl)) :
    p.length ≤ maxLen ∧ h.plEnd + h.pad.toNat = p.length ∧ pl = slice p h.hlen h.plEnd := by
  obtain ⟨h₀, hparse, hpay⟩ := parsePacket_ok hp
  obtain ⟨hmax, _, _, _, hin⟩ := headerParse_record hparse
  obtain ⟨_, _, _, hsize⟩ := payload_bounds hin hpay
  exact ⟨hmax, hsize, payload_slice hpay⟩

/-- Settles O23: the payload is the slice from HLEN to PL_END, and a consistent record gives its length. -/
theorem payloadIsARangeOfThePacket : Obligations.PayloadIsARangeOfThePacket := by
  intro maxLen p h pl hp
  obtain ⟨hmax, hsize, hslice⟩ := parsePacket_range hp
  obtain ⟨_, _, hhlen, hend, _, _⟩ := consistent_iff.mp (parsePacket_consistent hp)
  have hlen : pl.length = h.plEnd - h.hlen := by omega
  have hbyte : ∀ i, i < pl.length → pl[i]? = p[h.hlen + i]? := fun i hi => by
    rw [hslice, slice_getElem? (hlen ▸ hi)]
  exact ⟨hhlen ▸ twelve_le_lengthOf h, by omega, hsize, hmax, hlen, hbyte⟩

end Sys2Proof.Machine

/-! Decoding what was encoded, and the header parser's fields (R91 to R105, R135, R136): spec/30_encoding.md. -/

namespace Sys2Proof

open Machine

/-! ## The parts of a header record and of its bytes (R93 to R95) -/

/-- The twelve bytes of the fixed header (R93). -/
def fixedBytes (h : Header) : Bytes :=
  [rtpByte0 h, rtpByte1 h] ++ bytes16 h.seq ++ bytes32 h.ts ++ bytes32 h.ssrc

@[simp] theorem fixedBytes_length (h : Header) : (fixedBytes h).length = 12 := rfl

/-- The three parts of the header bytes (R93 to R95). -/
theorem headerBytes_eq (h : Header) : headerBytes h = fixedBytes h ++ h.csrc.flatMap bytes32 ++ extBytes h.ext := rfl

@[simp] theorem csrcBytes_length (cs : List (BitVec 32)) : (cs.flatMap bytes32).length = 4 * cs.length := by
  simp [List.length_flatMap, Nat.mul_comm]

theorem csrc_length_of_csrcOk {h : Header} (hc : h.csrcOk = true) : h.csrc.length = h.cc.toNat := beq_iff_eq.mp hc

theorem x_of_extOk_none {h : Header} (he : h.ext = none) (hext : h.extOk = true) : h.x = false := by
  simpa [Header.extOk, he] using hext

theorem x_and_data_of_extOk {h : Header} {x : ExtHeader} (he : h.ext = some x) (hext : h.extOk = true) :
    h.x = true ∧ x.data.length = 4 * x.len.toNat := by
  simpa [Header.extOk, he] using hext

/-! ## Writing what the parser read -/

/-- The fields of byte 0 cover its eight bits. -/
theorem rtpByte0_fixedHeader (p : Bytes) : rtpByte0 (fixedHeader p) = u8 p 0 := by
  have key : ∀ b : Byte, (rtpV b ++ BitVec.ofBool (rtpP b) ++ BitVec.ofBool (rtpX b) ++ rtpCc b : Byte) = b := by
    decide +kernel
  exact key (u8 p 0)

/-- The fields of byte 1 cover its eight bits. -/
theorem rtpByte1_fixedHeader (p : Bytes) : rtpByte1 (fixedHeader p) = u8 p 1 := by
  have key : ∀ b : Byte, (BitVec.ofBool (rtpM b) ++ rtpPt b : Byte) = b := by decide +kernel
  exact key (u8 p 1)

/-- Two bytes side by side are a slice. -/
theorem slice_two {p : Bytes} {a : Nat} (h : a + 2 ≤ p.length) : slice p a (a + 2) = [u8 p a, u8 p (a + 1)] := by
  rw [slice, drop_eq_u8_cons (by omega), drop_eq_u8_cons (by omega), Nat.add_sub_cancel_left]
  rfl

/-- Written out again, the fixed fields of a packet are its first twelve bytes. -/
theorem fixedBytes_fixedHeader {p : Bytes} (h : 12 ≤ p.length) : fixedBytes (fixedHeader p) = slice p 0 12 := by
  have hseq : bytes16 (fixedHeader p).seq = slice p 2 4 := bytes16_be16 (by omega)
  have hts : bytes32 (fixedHeader p).ts = slice p 4 8 := bytes32_be32 (by omega)
  have hssrc : bytes32 (fixedHeader p).ssrc = slice p 8 12 := bytes32_be32 (by omega)
  have hbytes : [u8 p 0, u8 p 1] = slice p 0 2 := (slice_two (by omega)).symm
  rw [fixedBytes, rtpByte0_fixedHeader, rtpByte1_fixedHeader, hbytes, hseq, hts, hssrc]
  simp only [slice_append_slice, Nat.reduceLeDiff]

/-- Written out again, the extension header at `e` is the packet from there to HLEN. -/
theorem extBytes_read {p : Bytes} {e n : Nat} (hn : n = e + 4 + 4 * (be16 p (e + 2)).toNat) (hin : n ≤ p.length) :
    extBytes (some ⟨be16 p e, be16 p (e + 2), slice p (e + 4) n⟩) = slice p e n := by
  rw [extBytes, bytes16_be16 (by omega), bytes16_be16 (by omega), slice_append_slice p (by omega) (by omega),
    slice_append_slice p (by omega) (by omega)]

/-- Written out again, the record of HeaderParse is the packet up to HLEN. -/
theorem headerBytes_of_headerParse {maxLen : Nat} {p : Bytes} {h : Header} (hp : headerParse maxLen p = .ok h) :
    headerBytes h = slice p 0 h.hlen := by
  obtain ⟨_, h12, hcsrc, hext⟩ := headerParse_ok hp
  have hlists : fixedBytes (fixedHeader p) ++ (csrcList p (rtpCc (u8 p 0)).toNat).flatMap bytes32 =
      slice p 0 (12 + 4 * (rtpCc (u8 p 0)).toNat) := by
    rw [fixedBytes_fixedHeader h12, csrcList_bytes hcsrc, slice_append_slice p (by omega) (by omega)]
  obtain ⟨_, rfl⟩ | ⟨_, e, len, rfl, rfl, hin, rfl⟩ := hext
  · exact (List.append_nil _).trans hlists
  · exact (congrArg₂ (· ++ ·) hlists (extBytes_read rfl hin)).trans (slice_append_slice p (by omega) (by omega))

/-- Settles O15: the header bytes and the payload are two adjacent slices, the first up to HLEN. -/
theorem headerRecordLosesNothing : Obligations.HeaderRecordLosesNothing := by
  intro maxLen p h pl hp
  obtain ⟨h₀, hparse, hpay⟩ := parsePacket_ok hp
  obtain ⟨_, _, _, _, hin⟩ := headerParse_record hparse
  obtain ⟨hrec, hend, _, _⟩ := payload_bounds hin hpay
  have hparsed := headerBytes_of_headerParse hparse
  have hbytes : headerBytes h = slice p 0 h.hlen := by rw [hrec]; exact hparsed
  rw [hbytes, payload_slice hpay, slice_append_slice p (Nat.zero_le _) (by omega)]
  rfl

/-- Settles O24: a parsed record is consistent, and the two counts that HLEN adds up have 4 and 16 bits. -/
theorem headerLengthIsBounded : Obligations.HeaderLengthIsBounded := by
  intro maxLen p h pl hp
  have hc := parsePacket_consistent hp
  obtain ⟨hcsrc, hext, hhlen, _, _, _⟩ := consistent_iff.mp hc
  have hcc := csrc_length_of_csrcOk hcsrc
  have hccBound := h.cc.isLt
  cases he : h.ext with
  | none =>
    simp only [Header.lengthOf, he] at hhlen ⊢
    exact ⟨by omega, by omega, hc⟩
  | some x =>
    have hlenBound := x.len.isLt
    obtain ⟨_, hdata⟩ := x_and_data_of_extOk he hext
    simp only [Header.lengthOf, he] at hhlen ⊢
    exact ⟨by omega, by omega, hc⟩

/-! ## Reading what the encoder wrote -/

/-- The fixed fields are read back whatever follows the header bytes. -/
theorem fixedHeader_headerBytes (h : Header) (rest : Bytes) : fixedHeader (headerBytes h ++ rest) =
    { h with csrc := [], ext := none, hlen := 0, pad := 0#8, plEnd := 0 } := by
  obtain ⟨hv, hp, hx, hcc⟩ := rtpByte0_fields h
  obtain ⟨hm, hpt⟩ := rtpByte1_fields h
  have hb0 : u8 (headerBytes h ++ rest) 0 = rtpByte0 h := rfl
  have hb1 : u8 (headerBytes h ++ rest) 1 = rtpByte1 h := rfl
  have hseq : be16 (headerBytes h ++ rest) 2 = h.seq := be16_bytes16 h.seq []
  have hts : be32 (headerBytes h ++ rest) 4 = h.ts := be32_bytes32 h.ts []
  have hssrc : be32 (headerBytes h ++ rest) 8 = h.ssrc := be32_bytes32 h.ssrc []
  rw [fixedHeader, hb0, hb1, hv, hp, hx, hcc, hm, hpt, hseq, hts, hssrc]

/-- An extension header stands where its bytes were written (R95). -/
theorem ext_at {q a t : Bytes} {x : ExtHeader} {e : Nat} (ha : a.length = e) (hdata : x.data.length = 4 * x.len.toNat)
    (hq : q = a ++ extBytes (some x) ++ t) :
    be16 q e = x.profile ∧ be16 q (e + 2) = x.len ∧ slice q (e + 4) (e + 4 + 4 * x.len.toNat) = x.data := by
  have hprofile : q = a ++ (bytes16 x.profile ++ (bytes16 x.len ++ (x.data ++ t))) := by
    simpa only [extBytes, List.append_assoc] using hq
  have hlen : q = (a ++ bytes16 x.profile) ++ (bytes16 x.len ++ (x.data ++ t)) := by
    rw [hprofile, List.append_assoc]
  have hbytes : q = (a ++ bytes16 x.profile ++ bytes16 x.len) ++ (x.data ++ t) := by
    rw [hlen, List.append_assoc _ (bytes16 x.len)]
  exact ⟨be16_at ha hprofile, be16_at (by simp [ha]) hlen, slice_at (by simp [ha]) (by rw [hdata]) hbytes⟩

section
variable {maxLen : Nat} {p : Bytes} {h : Header}

/-- HeaderParse on a packet without an extension that passes the length checks (R135). -/
theorem headerParse_of_no_ext (hfixed : fixedHeader p = h) (hmax : p.length ≤ maxLen) (hx : h.x = false)
    (hcsrc : 12 + 4 * h.cc.toNat ≤ p.length) :
    headerParse maxLen p = .ok { h with csrc := csrcList p h.cc.toNat, hlen := 12 + 4 * h.cc.toNat } := by
  have h12 : 12 ≤ p.length := by omega
  simp [headerParse, Nat.not_lt.mpr, *]

/-- HeaderParse on a packet with an extension that passes the length checks (R135). -/
theorem headerParse_of_ext {e n : Nat} {len : BitVec 16} (hfixed : fixedHeader p = h) (hmax : p.length ≤ maxLen)
    (hx : h.x = true) (he : e = 12 + 4 * h.cc.toNat) (hlen : be16 p (e + 2) = len) (hn : n = e + 4 + 4 * len.toNat)
    (hin : n ≤ p.length) :
    headerParse maxLen p = .ok { h with
      csrc := csrcList p h.cc.toNat
      ext := some ⟨be16 p e, len, slice p (e + 4) n⟩
      hlen := n } := by
  have h12 : 12 ≤ p.length := by omega
  have hcsrc : e ≤ p.length := by omega
  have hext : e + 4 ≤ p.length := by omega
  subst he hn
  simp [headerParse, Nat.not_lt.mpr, *]

end

/-- HeaderParse reads back the record whose header bytes head the packet; PAD and PL_END are Payload's to write (log 10). -/
theorem headerParse_headerBytes {maxLen : Nat} {h : Header} {rest : Bytes} (hcsrc : h.csrcOk = true)
    (hext : h.extOk = true) (hhlen : h.hlen = h.lengthOf) (hmax : (headerBytes h ++ rest).length ≤ maxLen) :
    headerParse maxLen (headerBytes h ++ rest) = .ok { h with pad := 0#8, plEnd := 0 } := by
  have hfixed := fixedHeader_headerBytes h rest
  have hcc := csrc_length_of_csrcOk hcsrc
  have hlists : csrcList (headerBytes h ++ rest) h.cc.toNat = h.csrc := by
    rw [← hcc, headerBytes_eq, List.append_assoc]
    exact csrcList_of_bytes h.csrc rfl
  have hin : h.lengthOf ≤ (headerBytes h ++ rest).length := by
    rw [List.length_append, headerBytes_length hcsrc hext]
    exact Nat.le_add_right _ _
  cases he : h.ext with
  | none =>
    have hx := x_of_extOk_none he hext
    have hlen : h.lengthOf = 12 + 4 * h.cc.toNat := by simp [Header.lengthOf, he]
    rw [headerParse_of_no_ext hfixed hmax hx (hlen ▸ hin), hlists, ← hlen, ← hhlen, ← he]
  | some x =>
    obtain ⟨hx, hdata⟩ := x_and_data_of_extOk he hext
    have hlen : h.lengthOf = 12 + 4 * h.cc.toNat + 4 + 4 * x.len.toNat := by simp [Header.lengthOf, he, Nat.add_assoc]
    have hbefore : (fixedBytes h ++ h.csrc.flatMap bytes32).length = 12 + 4 * h.cc.toNat := by
      rw [List.length_append, fixedBytes_length, csrcBytes_length, hcc]
    obtain ⟨hprofile, hextLen, hextData⟩ := ext_at (t := rest) hbefore hdata rfl
    rw [← he, ← headerBytes_eq] at hprofile hextLen hextData
    rw [headerParse_of_ext hfixed hmax hx rfl hextLen hlen hin, hlists, hprofile, hlen, hextData, ← hlen, ← hhlen, ← he]

/-! ## The payload and its padding (R96, R136) -/

theorem payload_of_unpadded {p : Bytes} {h : Header} (hp : h.p = false) :
    payload p h = .ok ({ h with pad := 0#8, plEnd := p.length }, slice p h.hlen p.length) := by
  simp [payload, hp]

theorem payload_of_padded {p : Bytes} {h : Header} {N : Byte} (hp : h.p = true) (hN : u8 p (p.length - 1) = N)
    (hne : p.length ≠ h.hlen) (hfits : N.toNat ≤ p.length - h.hlen) :
    payload p h = .ok ({ h with pad := N, plEnd := p.length - N.toNat }, slice p h.hlen (p.length - N.toNat)) := by
  simp [payload, hp, hN, hne, Nat.not_lt.mpr hfits]

/-- The byte before the end is the last one. -/
theorem u8_length_sub_one {p : Bytes} {b : Byte} (h : p.getLast? = some b) : u8 p (p.length - 1) = b := by
  rw [u8, List.getD_eq_getElem?_getD, ← List.getLast?_eq_getElem?, h, Option.getD_some]

/-- A padding trailer: the bytes `trail` and the count, or nothing when the count is 0 (R96). -/
def padTrailer (trail : Bytes) (pad : Byte) : Bytes := if pad = 0#8 then [] else trail ++ [pad]

theorem padTrailer_length {trail : Bytes} {pad : Byte} (h : trail.length = pad.toNat - 1) :
    (padTrailer trail pad).length = pad.toNat := by
  unfold padTrailer
  split_ifs with h0
  · rw [h0]; rfl
  · have hpos : pad.toNat ≠ 0 := fun e => h0 (BitVec.eq_of_toNat_eq e)
    simp; omega

/-- With P = 1 the count is the last byte: of the trailer, or of the payload when it drops nothing. -/
theorem getLast?_append_padTrailer {h : Header} {pl : Bytes} (trail : Bytes) (hp : h.p = true)
    (hpad : h.padOk pl = true) : (pl ++ padTrailer trail h.pad).getLast? = some h.pad := by
  by_cases h0 : h.pad = 0#8
  · simpa [padTrailer, Header.padOk, hp, h0] using hpad
  · simp [padTrailer, h0]

/-- Payload cuts the header bytes and the trailer off, and fills in PAD and PL_END. -/
theorem payload_append {front pl trail : Bytes} {h : Header} (hfront : front.length = h.hlen)
    (hend : h.plEnd = h.hlen + pl.length) (hpad : h.padOk pl = true) (htrail : trail.length = h.pad.toNat - 1) :
    payload (front ++ pl ++ padTrailer trail h.pad) { h with pad := 0#8, plEnd := 0 } = .ok (h, pl) := by
  have htail := padTrailer_length htrail
  have hlen : (front ++ pl ++ padTrailer trail h.pad).length = h.plEnd + h.pad.toNat := by
    rw [List.length_append, List.length_append, hfront, htail, hend]
  have hpl : slice (front ++ pl ++ padTrailer trail h.pad) h.hlen h.plEnd = pl :=
    slice_at hfront hend (List.append_assoc _ _ _)
  by_cases hp : h.p = true
  · have hlast := getLast?_append_padTrailer trail hp hpad
    have hpos : 0 < pl.length + h.pad.toNat := by
      rw [← htail, ← List.length_append, List.length_pos_iff]
      exact fun e => by simp [e] at hlast
    have hlast' : (front ++ pl ++ padTrailer trail h.pad).getLast? = some h.pad := by
      rw [List.append_assoc, List.getLast?_append, hlast, Option.some_or]
    refine (payload_of_padded hp (u8_length_sub_one hlast') ?_ ?_).trans ?_
    · rw [hlen]; show _ ≠ h.hlen; omega
    · rw [hlen]; show _ ≤ _ - h.hlen; omega
    · rw [hlen, Nat.add_sub_cancel, hpl]
  · have hp : h.p = false := by simpa using hp
    have h0 : h.pad = 0#8 := by simpa [Header.padOk, hp] using hpad
    have hall : (front ++ pl ++ padTrailer trail h.pad).length = h.plEnd := by rw [hlen, h0]; rfl
    refine (payload_of_unpadded hp).trans ?_
    rw [hall, hpl, ← h0]

/-- Settles O13: HeaderParse reads back the record's bytes, Payload the payload and the padding count. -/
theorem parserReadsBackTheHeader : Obligations.ParserReadsBackTheHeader := by
  intro maxLen h pl trail hc htrail
  obtain ⟨hcsrc, hext, hhlen, hend, hpad, hmax⟩ := consistent_iff.mp hc
  have hfront : (headerBytes h).length = h.hlen := (headerBytes_length hcsrc hext).trans hhlen.symm
  have hparse : headerParse maxLen (headerBytes h ++ (pl ++ padTrailer trail h.pad)) = _ :=
    headerParse_headerBytes hcsrc hext hhlen (by simp [hfront, padTrailer_length htrail]; omega)
  show parsePacket maxLen (headerBytes h ++ pl ++ padTrailer trail h.pad) = _
  rw [← List.append_assoc] at hparse
  rw [parsePacket, hparse]
  exact payload_append hfront hend hpad htrail

/-! ## The dispatch (R98, R99, R173) -/

/-- Settles O16: the masks of the rows are ranges of TYPE, and the ranges are disjoint. -/
theorem dispatchMapByType : Obligations.DispatchMapByType := by
  intro h pl t ht
  obtain ⟨r0, r1, r2, r4, r8, r16, r24, r25, r26, r27, r28, r29, _⟩ := nal8_rows (u8 pl 0)
  simp only [decodeNal, r0, r1, r2, r4, r8, r16, r24, r25, r26, r27, r28, r29, u8_toNat, ht, decide_eq_true_eq]
  refine ⟨?_, ?_, ?_, ?_, ?_, ?_, ?_, ?_, ?_, ?_, ?_, ?_, ?_⟩ <;> intros <;> simp (disch := omega) only [if_pos, if_neg]

/-- A row that the first payload byte matches is the one the dispatch selects. -/
theorem decodeNal_of_row (h : Header) (pl : Bytes) :
    (rowMatches8 0x1F#8 0x00#8 (u8 pl 0) = true → decodeNal h pl = .reservedType0 h pl) ∧
    (rowMatches8 0x1F#8 0x01#8 (u8 pl 0) = true → decodeNal h pl = .singleNalType1 h pl) ∧
    (rowMatches8 0x1E#8 0x02#8 (u8 pl 0) = true → decodeNal h pl = .singleNalType2To3 h pl) ∧
    (rowMatches8 0x1C#8 0x04#8 (u8 pl 0) = true → decodeNal h pl = .singleNalType4To7 h pl) ∧
    (rowMatches8 0x18#8 0x08#8 (u8 pl 0) = true → decodeNal h pl = .singleNalType8To15 h pl) ∧
    (rowMatches8 0x18#8 0x10#8 (u8 pl 0) = true → decodeNal h pl = .singleNalType16To23 h pl) ∧
    (rowMatches8 0x1F#8 0x18#8 (u8 pl 0) = true → decodeNal h pl = .stapA h pl) ∧
    (rowMatches8 0x1F#8 0x19#8 (u8 pl 0) = true → decodeNal h pl = .stapB h pl) ∧
    (rowMatches8 0x1F#8 0x1A#8 (u8 pl 0) = true → decodeNal h pl = .mtap16 h pl) ∧
    (rowMatches8 0x1F#8 0x1B#8 (u8 pl 0) = true → decodeNal h pl = .mtap24 h pl) ∧
    (rowMatches8 0x1F#8 0x1C#8 (u8 pl 0) = true → decodeNal h pl = decodeFuA h pl) ∧
    (rowMatches8 0x1F#8 0x1D#8 (u8 pl 0) = true → decodeNal h pl = decodeFuB h pl) ∧
    (rowMatches8 0x1E#8 0x1E#8 (u8 pl 0) = true → decodeNal h pl = .reservedType30To31 h pl) := by
  simpa only [nal8_rows, u8_toNat, decide_eq_true_eq, and_imp] using dispatchMapByType h pl _ rfl

/-! ## The sub-operations of the fragments (R99), for both types at once -/

/-- TYPE 28 and 29, the match values of the two `nal8` rows of fragments (R98). -/
def fuRowByte : FuType → Byte
  | .A => 0x1C#8
  | .B => 0x1D#8

/-- The decoder of each fragmentation type's payloads. -/
def decodeFu : FuType → Header → Bytes → Instr
  | .A => decodeFuA
  | .B => decodeFuB

theorem fuRow_eq_decide (k : FuType) (b : Byte) :
    rowMatches8 0x1F#8 (fuRowByte k) b = decide (b.toNat % 32 = (fuRowByte k).toNat) := by
  revert b
  cases k <;> decide +kernel

theorem decodeNal_of_fuRow {k : FuType} {pl : Bytes} (h : Header)
    (hrow : rowMatches8 0x1F#8 (fuRowByte k) (u8 pl 0) = true) : decodeNal h pl = decodeFu k h pl := by
  cases k <;> simp only [fuRowByte] at hrow <;> simp only [decodeNal_of_row, hrow, decodeFu]

theorem decodeFu_of_short {pl : Bytes} (k : FuType) (h : Header) (hlen : pl.length < 2) :
    decodeFu k h pl = fuWhole k h pl := by
  cases k <;> exact if_pos hlen

/-- With a second byte, the `fu16` rows are tried in the table's order. -/
theorem decodeFu_of_two_le {pl : Bytes} (k : FuType) (h : Header) (hlen : 2 ≤ pl.length) :
    decodeFu k h pl =
      if rowMatches16 (tableRow (fuSub k true false h pl)).value (be16 pl 0) then fuSub k true false h pl
      else if rowMatches16 (tableRow (fuSub k false false h pl)).value (be16 pl 0) then fuSub k false false h pl
      else if rowMatches16 (tableRow (fuSub k false true h pl)).value (be16 pl 0) then fuSub k false true h pl
      else if rowMatches16 (tableRow (fuSub k true true h pl)).value (be16 pl 0) then fuSub k true true h pl
      else fuWhole k h pl := by
  cases k <;> exact if_neg (Nat.not_lt.mpr hlen)

/-- A `fu16` row is a type in the first byte and the start and end bits in the second. -/
theorem fuSub_row (k : FuType) (start stop : Bool) (h : Header) (pl : Bytes) :
    rowMatches16 (tableRow (fuSub k start stop h pl)).value (be16 pl 0) =
      (rowMatches8 0x1F#8 (fuRowByte k) (u8 pl 0) && (fuS (u8 pl 1) == start && fuE (u8 pl 1) == stop)) := by
  have hvalue : (tableRow (fuSub k start stop h pl)).value =
      fuRowByte k ++ (BitVec.ofBool start ++ BitVec.ofBool stop ++ 0#6 : Byte) := by
    cases k <;> cases start <;> cases stop <;> rfl
  have hbits : ∀ (start stop : Bool) (c : Byte),
      rowMatches8 0xC0#8 (BitVec.ofBool start ++ BitVec.ofBool stop ++ 0#6) c = (fuS c == start && fuE c == stop) := by
    decide +kernel
  rw [hvalue, rowMatches16_be16, hbits]

/-- The start and end bits select the sub-operation. -/
theorem decodeFu_eq_fuSub {k : FuType} {pl : Bytes} (h : Header) (hlen : 2 ≤ pl.length)
    (hrow : rowMatches8 0x1F#8 (fuRowByte k) (u8 pl 0) = true) :
    decodeFu k h pl = fuSub k (fuS (u8 pl 1)) (fuE (u8 pl 1)) h pl := by
  simp only [decodeFu_of_two_le k h hlen, fuSub_row, hrow, Bool.true_and]
  cases fuS (u8 pl 1) <;> cases fuE (u8 pl 1) <;> rfl

/-- The fragment whose `fu16` row the first two bytes match is the one decoded. -/
theorem decodeNal_of_fuSub_row {k : FuType} {start stop : Bool} {h : Header} {pl : Bytes} (hlen : 2 ≤ pl.length)
    (hrow : rowMatches16 (tableRow (fuSub k start stop h pl)).value (be16 pl 0) = true) :
    decodeNal h pl = fuSub k start stop h pl := by
  simp only [fuSub_row, Bool.and_eq_true, beq_iff_eq] at hrow
  obtain ⟨htype, rfl, rfl⟩ := hrow
  rw [decodeNal_of_fuRow h htype, decodeFu_eq_fuSub h hlen htype]

/-- A flag of a byte as the arithmetic that picks its bit. -/
theorem getLsbD_u8 (p : Bytes) (a i : Nat) : ((u8 p a).getLsbD i).toNat = memRead p a 1 / 2 ^ i % 2 := by
  rw [← u8_toNat]
  exact Nat.toNat_testBit _ i

/-- Settles O17: the arithmetic names the two flags of the FU header, and the flags select the row. -/
theorem fuBitsSelectTheSubOperation : Obligations.FuBitsSelectTheSubOperation := by
  intro h pl hlen start stop hs he
  have hinj : Function.Injective Bool.toNat := by decide
  have hstart : fuS (u8 pl 1) = start := hinj ((getLsbD_u8 pl 1 7).trans hs)
  have hstop : fuE (u8 pl 1) = stop := hinj ((getLsbD_u8 pl 1 6).trans he)
  have hrow : ∀ k : FuType, memRead pl 0 1 % 32 = (fuRowByte k).toNat →
      rowMatches8 0x1F#8 (fuRowByte k) (u8 pl 0) = true := fun k ht => by
    rw [fuRow_eq_decide, u8_toNat, decide_eq_true ht]
  rw [← hstart, ← hstop]
  exact ⟨fun ht => decodeFu_eq_fuSub h hlen (hrow .A ht), fun ht => decodeFu_eq_fuSub h hlen (hrow .B ht)⟩

/-! ## Command codes (R91, R92) -/

/-- Settles O18: the decoder runs on each word. -/
theorem wordsOfTheTablesDecode : Obligations.WordsOfTheTablesDecode :=
  ⟨rfl, rfl, ⟨_, rfl⟩, ⟨_, rfl⟩, ⟨_, rfl⟩, rfl⟩

/-- A code of 0x03 or more is no command (R92). -/
theorem decode_of_three_le {maxLen : Nat} {c : Command} (hc : 3 ≤ c.code.toNat) :
    decode maxLen c = .error (.illegalCommand c.code) := by
  have hne : ∀ v : Byte, v.toNat < 3 → c.code ≠ v := fun v hv e => by rw [e] at hc; omega
  rw [decode, if_neg (hne _ (by decide)), if_neg (hne _ (by decide)), if_neg (hne _ (by decide))]

/-- Settles O7: the decoder refuses the code, and the step raises ILLEGAL_COMMAND without reading the packet. -/
theorem illegalCommandChangesNothing : Obligations.IllegalCommandChangesNothing := by
  intro s c hs hc
  refine ⟨?_, rfl⟩
  simp only [step, hs, decode_of_three_le hc]
  rfl

/-! ## The parser's answer in arithmetic on the packet (R93 to R96, R105, R136) -/

theorem toNat_rtpCc (p : Bytes) : (rtpCc (u8 p 0)).toNat = ccOf p := by
  simp [rtpCc, ccOf, ← u8_toNat]

theorem toNat_rtpX (p : Bytes) : (rtpX (u8 p 0)).toNat = xOf p := getLsbD_u8 p 0 4

theorem toNat_rtpP (p : Bytes) : (rtpP (u8 p 0)).toNat = padFlagOf p := getLsbD_u8 p 0 5

theorem rtpX_iff (p : Bytes) : rtpX (u8 p 0) = true ↔ xOf p = 1 := by
  rw [← Bool.toNat_eq_one, toNat_rtpX]

theorem rtpP_iff (p : Bytes) : rtpP (u8 p 0) = true ↔ padFlagOf p = 1 := by
  rw [← Bool.toNat_eq_one, toNat_rtpP]

/-- The extension header of a packet (R95). -/
def extOf (p : Bytes) : Option ExtHeader :=
  if xOf p = 1 then
    some ⟨be16 p (csrcEnd p), be16 p (csrcEnd p + 2), slice p (csrcEnd p + 4) (hlenOf p)⟩
  else none

/-- The padding count as a byte (R96). -/
def padByteOf (p : Bytes) : Byte := if padFlagOf p = 1 then u8 p (p.length - 1) else 0#8

theorem toNat_padByteOf (p : Bytes) : (padByteOf p).toNat = padOf p := by
  unfold padByteOf padOf
  split_ifs
  · exact u8_toNat p _
  · rfl

/-- The header record of a packet that meets no error condition (R36). -/
def headerOf (p : Bytes) : Header :=
  { fixedHeader p with
    csrc := csrcList p (ccOf p), ext := extOf p, hlen := hlenOf p, pad := padByteOf p, plEnd := p.length - padOf p }

/-- What the absence of an error condition says (R271, R273). -/
theorem bounds_of_packetError_eq_none {maxLen : Nat} {p : Bytes} (h : packetError maxLen p = none) :
    p.length ≤ maxLen ∧ csrcEnd p ≤ p.length ∧ hlenOf p ≤ p.length ∧
      (padFlagOf p = 1 → p.length ≠ hlenOf p ∧ padOf p ≤ p.length - hlenOf p) := by
  unfold packetError at h
  split_ifs at h with hmax h12 hcsrc hext hdata hpad
  refine ⟨by omega, by omega, ?_, fun hp => by omega⟩
  by_cases hx : xOf p = 1
  · omega
  · rw [hlenOf, if_neg hx]; omega

/-- HeaderParse on a packet that meets no error condition. -/
theorem headerParse_of_packetError_eq_none {maxLen : Nat} {p : Bytes} (h : packetError maxLen p = none) :
    headerParse maxLen p =
      .ok { fixedHeader p with csrc := csrcList p (ccOf p), ext := extOf p, hlen := hlenOf p } := by
  obtain ⟨hmax, hcsrc, hin, _⟩ := bounds_of_packetError_eq_none h
  have hend : csrcEnd p = 12 + 4 * (fixedHeader p).cc.toNat := congrArg (12 + 4 * ·) (toNat_rtpCc p).symm
  by_cases hx : xOf p = 1
  · have hlen : hlenOf p = csrcEnd p + 4 + 4 * (be16 p (csrcEnd p + 2)).toNat := by
      rw [hlenOf, if_pos hx, be16_toNat, Nat.add_assoc]
    rw [headerParse_of_ext rfl hmax ((rtpX_iff p).mpr hx) hend rfl hlen hin, extOf, if_pos hx, ← toNat_rtpCc]
    rfl
  · have hx' : (fixedHeader p).x = false := Bool.eq_false_of_not_eq_true (mt (rtpX_iff p).mp hx)
    rw [headerParse_of_no_ext rfl hmax hx' (hend ▸ hcsrc), extOf, if_neg hx, ← hend, hlenOf, if_neg hx, ← toNat_rtpCc]
    rfl

/-- The parser answers the header record and the payload that the packet's arithmetic gives. -/
theorem parsePacket_of_packetError_eq_none {maxLen : Nat} {p : Bytes} (h : packetError maxLen p = none) :
    parsePacket maxLen p = .ok (headerOf p, slice p (hlenOf p) (p.length - padOf p)) := by
  obtain ⟨_, _, _, hpad⟩ := bounds_of_packetError_eq_none h
  rw [parsePacket, headerParse_of_packetError_eq_none h]
  by_cases hp : padFlagOf p = 1
  · obtain ⟨hne, hfits⟩ := hpad hp
    rw [← toNat_padByteOf] at hfits
    refine (payload_of_padded (N := padByteOf p) ((rtpP_iff p).mpr hp) (if_pos hp).symm hne hfits).trans ?_
    rw [toNat_padByteOf]
    rfl
  · have hp' : rtpP (u8 p 0) = false := Bool.eq_false_of_not_eq_true (mt (rtpP_iff p).mp hp)
    refine (payload_of_unpadded hp').trans ?_
    simp only [headerOf, padByteOf, padOf, if_neg hp, Nat.sub_zero]

theorem headerOf_csrc_getElem? {p : Bytes} {i : Nat} (hi : i < ccOf p) :
    ((headerOf p).csrc.map BitVec.toNat)[i]? = some (memRead p (12 + 4 * i) 4) := by
  simp [headerOf, csrcList, hi, be32_toNat]

theorem headerOf_ext {p : Bytes} (hx : xOf p = 1) :
    ∃ x, (headerOf p).ext = some x ∧ x.profile.toNat = memRead p (csrcEnd p) 2 ∧
      x.len.toNat = memRead p (csrcEnd p + 2) 2 ∧
      x.data = (p.drop (csrcEnd p + 4)).take (4 * memRead p (csrcEnd p + 2) 2) := by
  refine ⟨_, if_pos hx, be16_toNat p _, be16_toNat p _, ?_⟩
  rw [slice, hlenOf, if_pos hx, ← Nat.add_assoc, Nat.add_sub_cancel_left]

/-- The first two bytes of the fixed header, field by field (R93). -/
theorem fixedHeader_bytes_toNat (p : Bytes) :
    (fixedHeader p).v.toNat = memRead p 0 1 / 64 ∧ (fixedHeader p).p.toNat = memRead p 0 1 / 32 % 2 ∧
    (fixedHeader p).x.toNat = memRead p 0 1 / 16 % 2 ∧ (fixedHeader p).cc.toNat = memRead p 0 1 % 16 ∧
    (fixedHeader p).m.toNat = memRead p 1 1 / 128 ∧ (fixedHeader p).pt.toNat = memRead p 1 1 % 128 := by
  have h0 := (u8 p 0).isLt
  have h1 := (u8 p 1).isLt
  have hm : (rtpM (u8 p 1)).toNat = _ := getLsbD_u8 p 1 7
  refine ⟨?_, toNat_rtpP p, toNat_rtpX p, toNat_rtpCc p, ?_, ?_⟩
  · rw [← u8_toNat]; simp [fixedHeader, rtpV, Nat.shiftRight_eq_div_pow]; omega
  · refine hm.trans ?_
    rw [← u8_toNat]; omega
  · rw [← u8_toNat]; simp [fixedHeader, rtpPt]

/-- Settles O21: the parser answers `headerOf`, whose fields are the arithmetic of the packet's bytes. -/
theorem parseAnswersTheHeaderFields : Obligations.ParseAnswersTheHeaderFields := by
  intro p s herr
  obtain ⟨hv, hp, hx, hcc, hm, hpt⟩ := fixedHeader_bytes_toNat p
  refine ⟨headerOf p, ?_, hv, hp, hx, hcc, hm, hpt, be16_toNat p 2, be32_toNat p 4, be32_toNat p 8,
    csrcList_length p _, fun i => headerOf_csrc_getElem?, ?_, headerOf_ext, rfl, toNat_padByteOf p, rfl⟩
  · show execParse p s = _
    rw [execParse, parsePacket_of_packetError_eq_none herr]
    rfl
  · intro hx0
    exact if_neg (by omega)

/-! ## Decoding what was encoded -/

/-- An encoded packet is the one of `parserReadsBackTheHeader` with padding bytes of 0 (log 7). -/
theorem extractOperands_encodePacket {maxLen : Nat} {h : Header} {pl : Bytes} (hc : h.consistent maxLen pl = true)
    (hne : pl ≠ []) : extractOperands maxLen (encodePacket h pl) = .ok (h, pl) :=
  extractOperands_ok_iff.mpr ⟨parserReadsBackTheHeader maxLen h pl _ hc List.length_replicate, hne⟩

section
variable {maxLen : Nat} {h : Header} {pl : Bytes}

/-- The decoder reads the operands back, and dispatches on the payload. -/
theorem decode_encodePacket (hc : h.consistent maxLen pl = true) (hne : 1 ≤ pl.length) :
    decode maxLen ⟨0x02#8, encodePacket h pl⟩ = .ok (decodeNal h pl) := by
  simp [decode, extractOperands_encodePacket hc (List.length_pos_iff.mp hne)]

/-- The instruction of a `nal8` row comes back when the row is the one the dispatch selects. -/
theorem decode_nal8 {mask value : Byte} {i : Instr} (hw : (h.consistent maxLen pl && matchesNal8 mask value pl) = true)
    (hrow : rowMatches8 mask value (u8 pl 0) = true → decodeNal h pl = i) :
    decode maxLen ⟨0x02#8, encodePacket h pl⟩ = .ok i := by
  simp only [Bool.and_eq_true, matchesNal8, decide_eq_true_eq] at hw
  obtain ⟨hc, hlen, hmatch⟩ := hw
  rw [decode_encodePacket hc hlen, hrow hmatch]

/-- A fragment without a second byte stands for itself (log 5). -/
theorem decode_fuWhole {k : FuType}
    (hw : (h.consistent maxLen pl && matchesNal8 0x1F#8 (fuRowByte k) pl && pl.length == 1) = true) :
    decode maxLen ⟨0x02#8, encodePacket h pl⟩ = .ok (fuWhole k h pl) := by
  obtain ⟨hrow, hone⟩ := Bool.and_eq_true_iff.mp hw
  have hshort : pl.length < 2 := by rw [beq_iff_eq.mp hone]; decide
  exact decode_nal8 hrow fun hmatch => (decodeNal_of_fuRow h hmatch).trans (decodeFu_of_short k h hshort)

/-- The instruction of a `fu16` row comes back. -/
theorem decode_fuSub {k : FuType} {start stop : Bool}
    (hw : (h.consistent maxLen pl && matchesFu16 (tableRow (fuSub k start stop h pl)).value pl) = true) :
    decode maxLen ⟨0x02#8, encodePacket h pl⟩ = .ok (fuSub k start stop h pl) := by
  simp only [Bool.and_eq_true, matchesFu16, decide_eq_true_eq] at hw
  obtain ⟨hc, hlen, hmatch⟩ := hw
  rw [decode_encodePacket hc (by omega), decodeNal_of_fuSub_row hlen hmatch]

end

/-- An EXTRACT whose packet raises stays EXTRACT (log 5). -/
theorem decode_encode_extract {maxLen : Nat} {p : Bytes} (hw : (Instr.extract p).wellFormed maxLen = true) :
    decode maxLen (encode (.extract p)) = .ok (.extract p) := by
  cases hop : extractOperands maxLen p with
  | error e => simp [decode, encode, hop]
  | ok hpl => simp [Instr.wellFormed, hop] at hw

/-- Settles O12: the operands are read back from the packet, and the row that a well-formed payload matches is the one
decoded; the three command rows carry the packet itself. -/
theorem decodeOfEncodeIsTheInstruction : Obligations.DecodeOfEncodeIsTheInstruction := by
  intro maxLen i hw
  cases i with
  | reset | parse => rfl
  | extract p => exact decode_encode_extract hw
  | reservedType0 h pl | reservedType30To31 h pl | singleNalType1 h pl | singleNalType2To3 h pl
  | singleNalType4To7 h pl | singleNalType8To15 h pl | singleNalType16To23 h pl | stapA h pl | stapB h pl
  | mtap16 h pl | mtap24 h pl =>
    exact decode_nal8 hw fun hrow => by simp only [decodeNal_of_row, hrow]
  | fuA h pl => exact decode_fuWhole (k := .A) hw
  | fuB h pl => exact decode_fuWhole (k := .B) hw
  | fuAStart h pl => exact decode_fuSub (k := .A) (start := true) (stop := false) hw
  | fuAMiddle h pl => exact decode_fuSub (k := .A) (start := false) (stop := false) hw
  | fuAEnd h pl => exact decode_fuSub (k := .A) (start := false) (stop := true) hw
  | fuAStartEnd h pl => exact decode_fuSub (k := .A) (start := true) (stop := true) hw
  | fuBStart h pl => exact decode_fuSub (k := .B) (start := true) (stop := false) hw
  | fuBMiddle h pl => exact decode_fuSub (k := .B) (start := false) (stop := false) hw
  | fuBEnd h pl => exact decode_fuSub (k := .B) (start := false) (stop := true) hw
  | fuBStartEnd h pl => exact decode_fuSub (k := .B) (start := true) (stop := true) hw

end Sys2Proof

/-! The header parser's two commands (R130, R131, R137, R172): spec/41_rtp_header.md. -/

namespace Sys2Proof.Machine

/-! ## PARSE is a function of the packet and MAX_PKT_LEN (R137) -/

/-- The result record of PARSE (R130). -/
def parseResult (maxLen : Nat) (p : Bytes) : Result :=
  match parsePacket maxLen p with
  | .error e => errorResult e
  | .ok (h, pl) => { status := .header, header := some h, units := [pl], aggMeta := none }

theorem execParse_eq_deliver (p : Bytes) (s : State) :
    execParse p s = .next (s.deliver (parseResult s.params.maxPktLen p)) := by
  cases h : parsePacket s.params.maxPktLen p with
  | error e => simp only [execParse, parseResult, h, State.raise]
  | ok hpl => simp only [execParse, parseResult, h]

/-- Settles O22: `parseResult`, which no state enters, is the common result. -/
theorem parserIgnoresTheMachines : Obligations.ParserIgnoresTheMachines := by
  intro p s s' hmax
  refine ⟨parseResult s.params.maxPktLen p, execParse_eq_deliver p s, ?_⟩
  rw [hmax]
  exact execParse_eq_deliver p s'

/-! ## The length bounds come first (R131) -/

theorem headerParse_of_too_long {maxLen : Nat} {p : Bytes} (h : maxLen < p.length) :
    headerParse maxLen p = .error .packetTooLong := if_pos h

theorem headerParse_of_short {maxLen : Nat} {p : Bytes} (hmax : p.length ≤ maxLen) (h : p.length < 12) :
    headerParse maxLen p = .error .shortFixedHeader := (if_neg (Nat.not_lt.mpr hmax)).trans (if_pos h)

theorem parsePacket_of_headerParse_error {maxLen : Nat} {p : Bytes} {e : Reason}
    (h : headerParse maxLen p = .error e) : parsePacket maxLen p = .error e := by
  rw [parsePacket, h]

theorem extractOperands_of_parsePacket_error {maxLen : Nat} {p : Bytes} {e : Reason}
    (h : parsePacket maxLen p = .error e) : extractOperands maxLen p = .error e := by
  rw [extractOperands, h]

/-- PARSE and EXTRACT both raise what their common beginning raises, and change nothing else (R130, R172, R270). -/
theorem exec_of_parsePacket_error {p : Bytes} {s : State} {e : Reason}
    (h : parsePacket s.params.maxPktLen p = .error e) :
    exec (.parse p) s = .next (s.raise e) ∧ exec (.extract p) s = .next (s.raise e) := by
  constructor
  · show execParse p s = _
    rw [execParse, h]
  · show execExtract p s = _
    rw [execExtract, extractOperands_of_parsePacket_error h]

/-- Settles O19: HeaderParse tests the two bounds in this order, and both commands raise its error. -/
theorem lengthBoundsAreCheckedFirst : Obligations.LengthBoundsAreCheckedFirst := fun _ _ =>
  ⟨fun hlong => exec_of_parsePacket_error (parsePacket_of_headerParse_error (headerParse_of_too_long hlong)),
    fun hmax hshort =>
      exec_of_parsePacket_error (parsePacket_of_headerParse_error (headerParse_of_short hmax hshort))⟩

end Sys2Proof.Machine

/-! The three commands' dispatch (R170 to R176) and the bounds on what they emit: spec/42_dispatch.md. -/

namespace Sys2Proof.Machine

/-! ## RESET (R171) -/

/-- Settles O10: RESET writes both machines and its result. -/
theorem resetIdlesBothMachines : Obligations.ResetIdlesBothMachines := fun _ => ⟨rfl, rfl⟩

/-- RESET keeps the parameters and the command port, and nothing else of the state. -/
theorem exec_reset_congr {s s' : State} (hparams : s.params = s'.params) (hcommand : s.command = s'.command) :
    exec .reset s = exec .reset s' := by
  rw [(resetIdlesBothMachines s).1, (resetIdlesBothMachines s').1, hparams, hcommand]

/-- Settles O11: two runs that agree after their RESET agree from there on. -/
theorem resetErasesHistory : Obligations.ResetErasesHistory := by
  intro s s' is hparams hcommand
  refine ⟨?_, _, (resetIdlesBothMachines s).1, rfl, rfl, rfl⟩
  rw [execAll, execAll, exec_reset_congr hparams hcommand]

/-! ## RESERVED and SINGLE_NAL (R174, R175) -/

/-- Settles O27: both rows are `reservedOp`. -/
theorem reservedTypesAnswerNothing : Obligations.ReservedTypesAnswerNothing := fun _ _ _ => ⟨rfl, rfl⟩

/-- Settles O28: the five rows are `singleNalOp`. -/
theorem singleNalIsEmittedVerbatim : Obligations.SingleNalIsEmittedVerbatim := by
  rintro h pl s _ rfl
  exact ⟨rfl, rfl, rfl, rfl, rfl⟩

/-! ## EXTRACT is the row its payload selects (R172) -/

/-- The `nal8` row of a fragmentation type runs the whole of `Fu` (R238, R239). -/
theorem exec_fuWhole (k : FuType) (h : Header) (pl : Bytes) (s : State) :
    exec (fuWhole k h pl) s = .next (fuOp k h pl s) := by
  cases k <;> rfl

/-- A `fu16` row runs `Fu` with the row's start and end bits (R233 to R236). -/
theorem exec_fuSub (k : FuType) (start stop : Bool) (h : Header) (pl : Bytes) (s : State) :
    exec (fuSub k start stop h pl) s = .next (fuStep k start stop h pl s) := by
  cases k <;> cases start <;> cases stop <;> rfl

/-- The sub-operation the decoder selects is `Fu` with the bits of the payload's own FU header (R240). -/
theorem exec_decodeFu {k : FuType} {pl : Bytes} (hrow : rowMatches8 0x1F#8 (fuRowByte k) (u8 pl 0) = true) (h : Header)
    (s : State) : exec (decodeFu k h pl) s = .next (fuOp k h pl s) := by
  by_cases hlen : pl.length < 2
  · rw [decodeFu_of_short k h hlen, exec_fuWhole]
  · rw [decodeFu_eq_fuSub h (by omega) hrow, exec_fuSub, fuOp]

/-- The five rows of TYPE 1 to 23 have one meaning (R175). -/
theorem exec_decodeNal_of_single {pl : Bytes} (hlow : 1 ≤ memRead pl 0 1 % 32) (hhigh : memRead pl 0 1 % 32 ≤ 23)
    (h : Header) (s : State) : exec (decodeNal h pl) s = .next (singleNalOp h pl s) := by
  obtain ⟨_, r1, r2, r4, r8, r16, _⟩ := dispatchMapByType h pl _ rfl
  obtain ht | ht | ht | ht | ht : memRead pl 0 1 % 32 ≤ 1 ∨ (2 ≤ memRead pl 0 1 % 32 ∧ memRead pl 0 1 % 32 ≤ 3) ∨
      (4 ≤ memRead pl 0 1 % 32 ∧ memRead pl 0 1 % 32 ≤ 7) ∨ (8 ≤ memRead pl 0 1 % 32 ∧ memRead pl 0 1 % 32 ≤ 15) ∨
      16 ≤ memRead pl 0 1 % 32 := by omega
  · rw [r1 (by omega)]; rfl
  · rw [r2 ht.1 ht.2]; rfl
  · rw [r4 ht.1 ht.2]; rfl
  · rw [r8 ht.1 ht.2]; rfl
  · rw [r16 ht hhigh]; rfl

/-- The row the decoder selects has the meaning EXTRACT dispatches to: the two maps over TYPE are one. -/
theorem exec_decodeNal (h : Header) (pl : Bytes) (s : State) :
    exec (decodeNal h pl) s = .next (dispatchNal h pl s) := by
  obtain ⟨r0, _, _, _, _, _, r24, r25, r26, r27, _, _, r30⟩ := dispatchMapByType h pl _ rfl
  have fuRow {k : FuType} (ht : memRead pl 0 1 % 32 = (fuRowByte k).toNat) :
      exec (decodeNal h pl) s = .next (fuOp k h pl s) := by
    have hrow : rowMatches8 0x1F#8 (fuRowByte k) (u8 pl 0) = true := by
      rw [fuRow_eq_decide, u8_toNat, decide_eq_true ht]
    rw [decodeNal_of_fuRow h hrow, exec_decodeFu hrow]
  simp only [dispatchNal, nalType_toNat, u8_toNat]
  split_ifs with hres hsingle h24 h25 h26 h27 h28
  · obtain ht | ht | ht := hres
    · rw [r0 ht]; rfl
    · rw [r30 (by omega)]; rfl
    · rw [r30 (by omega)]; rfl
  · exact exec_decodeNal_of_single (by omega) hsingle h s
  · rw [r24 h24]; rfl
  · rw [r25 h25]; rfl
  · rw [r26 h26]; rfl
  · rw [r27 h27]; rfl
  · exact fuRow (k := .A) h28
  · exact fuRow (k := .B) (by show _ = 29; omega)

/-- EXTRACT of a packet that parses to a payload is the dispatch on that payload (R172). -/
theorem exec_extract_of_operands {p pl : Bytes} {h : Header} {s : State}
    (hop : extractOperands s.params.maxPktLen p = .ok (h, pl)) :
    exec (.extract p) s = .next (dispatchNal h pl s) := by
  show execExtract p s = _
  rw [execExtract, hop]

/-- Settles O25: both are the dispatch on the payload. -/
theorem extractRunsTheSelectedRow : Obligations.ExtractRunsTheSelectedRow := fun _ h pl s hop =>
  ⟨dispatchNal h pl s, exec_extract_of_operands hop, exec_decodeNal h pl s⟩

/-! ## The step (R170) -/

/-- Settles O5: the step takes the command and runs what it decodes to. -/
theorem stepRunsDecodedInstruction : Obligations.StepRunsDecodedInstruction := by
  intro s c i hs hd
  simp only [step, hs, hd]
  rfl

/-- An EXTRACT's step is the whole EXTRACT, whether its packet raises or selects a row (log 5). -/
theorem step_of_extract {s : State} {c : Command} (hs : s.command = some c) (hc : c.code = 0x02#8) :
    step s = exec (.extract c.packet) { s with command := none } := by
  cases hop : extractOperands s.params.maxPktLen c.packet with
  | error e => exact stepRunsDecodedInstruction s c _ hs (by simp [decode, hc, hop])
  | ok operands =>
    obtain ⟨h, pl⟩ := operands
    have hd : decode s.params.maxPktLen c = .ok (decodeNal h pl) := by simp [decode, hc, hop]
    rw [stepRunsDecodedInstruction s c _ hs hd, exec_decodeNal]
    exact (exec_extract_of_operands (s := s.takeCommand) hop).symm

/-- Settles O6: RESET and PARSE decode to themselves, an EXTRACT is `step_of_extract`, and any other code raises. -/
theorem stepIsTheCommandItsCodeNames : Obligations.StepIsTheCommandItsCodeNames := by
  intro s c hs
  split_ifs with h0 h1 h2
  · exact stepRunsDecodedInstruction s c _ hs (if_pos h0)
  · exact stepRunsDecodedInstruction s c _ hs ((if_neg h0).trans (if_pos h1))
  · exact step_of_extract hs h2
  · have hd : decode s.params.maxPktLen c = .error (.illegalCommand c.code) := by simp [decode, h0, h1, h2]
    simp only [step, hs, hd]
    rfl

/-! ## EXTRACT of a reserved type or a single NAL unit (R172, R174, R175) -/

/-- A byte inside a slice is a byte of the packet. -/
theorem u8_slice {p : Bytes} {a b i : Nat} (hi : i < b - a) : u8 (slice p a b) i = u8 p (a + i) := by
  simp only [u8, List.getD_eq_getElem?_getD, slice_getElem? hi]

theorem dispatchNal_of_single {pl : Bytes} (hlow : 1 ≤ memRead pl 0 1 % 32) (hhigh : memRead pl 0 1 % 32 ≤ 23)
    (h : Header) (s : State) : dispatchNal h pl s = singleNalOp h pl s := by
  simp only [dispatchNal, nalType_toNat, u8_toNat]
  rw [if_neg (by omega), if_pos hhigh]

theorem dispatchNal_of_reserved {pl : Bytes} (ht : memRead pl 0 1 % 32 = 0 ∨ 30 ≤ memRead pl 0 1 % 32) (h : Header)
    (s : State) : dispatchNal h pl s = reservedOp h s := by
  simp only [dispatchNal, nalType_toNat, u8_toNat]
  rw [if_pos (by omega)]

/-- Settles O26: the operands are the arithmetic's own, and the payload's first byte stands at HLEN. -/
theorem extractOfSingleNalIsIdentity : Obligations.ExtractOfSingleNalIsIdentity := by
  intro p s herr hne
  have hpayload : slice p (hlenOf p) (p.length - padOf p) ≠ [] := by
    apply List.ne_nil_of_length_pos
    rw [slice_length]
    omega
  have hextract := exec_extract_of_operands
    (extractOperands_ok_iff.mpr ⟨parsePacket_of_packetError_eq_none herr, hpayload⟩)
  have htype : memRead (slice p (hlenOf p) (p.length - padOf p)) 0 1 = memRead p (hlenOf p) 1 := by
    rw [← u8_toNat, u8_slice (by omega), Nat.add_zero, u8_toNat]
  obtain ⟨_, _, _, _, hm, _⟩ := fixedHeader_bytes_toNat p
  refine ⟨headerOf p, rfl, be32_toNat p 4, hm, fun hlow hhigh => ?_, fun hres => ?_⟩
  · rw [← htype] at hlow hhigh
    rw [hextract, dispatchNal_of_single hlow hhigh]
    rfl
  · rw [← htype] at hres
    rw [hextract, dispatchNal_of_reserved hres]
    rfl

/-! ## What is not a fragment leaves the machines (R176) -/

/-- Settles O29: the instruction completes, and a machine that changed would be its own. -/
theorem nonFragmentsLeaveTheMachines : Obligations.NonFragmentsLeaveTheMachines := by
  intro i s hreset hnone
  obtain ⟨t, r, ht, hr, hparams, hcommand⟩ := everyInstructionCompletes i s
  have kept (k : FuType) : t.fu k = s.fu k := by
    by_contra hchanged
    obtain rfl | hown := onlyTheOwnMachineChanges i s t k ht hchanged
    · exact hreset rfl
    · rw [hnone] at hown; cases hown
  refine ⟨r, ht.trans (congrArg _ ?_)⟩
  obtain ⟨fuA, fuB, params, command, result⟩ := t
  obtain ⟨rfl, rfl, rfl, rfl, rfl⟩ : fuA = s.fuA ∧ fuB = s.fuB ∧ params = s.params ∧ command = s.command ∧
      result = some r := ⟨kept .A, kept .B, hparams, hcommand, hr⟩
  rfl

/-! ## Bounds on the emitted units (R7, R130, R175, R190, R233 to R236) -/

/-- Every unit of the result that stands in `t` satisfies `P`. -/
def Emits (P : Bytes → Prop) (t : State) : Prop := ∀ r, t.result = some r → ∀ u ∈ r.units, P u

/-- The bound on a unit, by the fragmentation type of the instruction that emits it. -/
def unitBound (c : Params) : Option FuType → Bytes → Prop
  | none, u => u.length + 12 ≤ c.maxPktLen
  | some _, u => capAdmits c.fuBufCap u.length = true

section
variable {P Q : Bytes → Prop}

theorem Emits.mono {t : State} (ht : Emits P t) (hPQ : ∀ u, P u → Q u) : Emits Q t := fun r hr u hu =>
  hPQ u (ht r hr u hu)

theorem emits_deliver {r : Result} (hr : ∀ u ∈ r.units, P u) (s : State) : Emits P (s.deliver r) := by
  rintro _ ⟨⟩
  exact hr

/-- A result without a unit, an error among them, meets every bound. -/
theorem emits_deliver_nil {r : Result} (hr : r.units = []) (s : State) : Emits P (s.deliver r) :=
  emits_deliver (by simp [hr]) s

theorem emits_raise (e : Reason) (s : State) : Emits P (s.raise e) := emits_deliver_nil rfl s

theorem emits_deliver_singleton {r : Result} {u : Bytes} (hr : r.units = [u]) (hu : P u) (s : State) :
    Emits P (s.deliver r) :=
  emits_deliver (by simpa [hr] using hu) s

end

/-- Every unit of a walk is a range of its payload (R190). -/
theorem aggLoop_units_le {f : Framing} {t : AggType} {pl : Bytes} {pdon ptso : Option (BitVec 16)} :
    ∀ {fuel o i : Nat} {es : List (Bytes × EntryMeta)}, aggLoop f t pl pdon ptso fuel o i = .ok es →
      ∀ e ∈ es, e.1.length ≤ pl.length := by
  intro fuel
  induction fuel with
  | zero => intro o i es h; cases h; simp
  | succ n ih =>
    intro o i es h
    by_cases ho : o < pl.length
    · obtain ⟨_, bad⟩ | ⟨_, _, bad⟩ | ⟨_, _, _, bad⟩ | ⟨_, _, good⟩ :=
        aggLoop_entry (f := f) (t := t) (pdon := pdon) (ptso := ptso) (fuel := n) (i := i) ho
      · rw [bad] at h; cases h
      · rw [bad] at h; cases h
      · rw [bad] at h; cases h
      · rw [good] at h
        split at h <;> cases h
        next rest hrest =>
        have unit_le : (slice pl (o + aggHdr f t) (o + aggHdr f t + entryLen f t pl o)).length ≤ pl.length := by
          rw [slice_length]
          omega
        exact List.forall_mem_cons.mpr ⟨unit_le, ih hrest⟩
    · rw [aggLoop_at_end (by omega)] at h; cases h; simp

theorem aggOp_emits (t : AggType) (h : Header) (pl : Bytes) (s : State) :
    Emits (·.length ≤ pl.length) (aggOp t h pl s) := by
  obtain ⟨e, _, he⟩ | ⟨r, hw, _, hr⟩ := aggOp_cases t h pl s
  · exact he ▸ emits_raise e s
  · obtain ⟨_, es, hes, rfl⟩ := aggWalk_ok hw
    exact hr ▸ emits_deliver (List.forall_mem_map.mpr (aggLoop_units_le hes)) s

/-- The one unit of a fragment is a buffer the cap admits (R234 to R236). -/
theorem fuStep_emits (k : FuType) (start stop : Bool) (h : Header) (pl : Bytes) (s : State) :
    Emits (capAdmits s.params.fuBufCap ·.length = true) (fuStep k start stop h pl s) := by
  obtain ⟨_, short⟩ | ⟨_, ⟨_, _, orphan⟩ | ⟨nb, _, ⟨_, tooLarge⟩ | ⟨hcap, _, emitted⟩ | ⟨_, _, kept⟩⟩⟩ :=
    fuStep_cases k start stop h pl s
  · exact short ▸ emits_raise _ s
  · exact orphan ▸ emits_raise _ s
  · exact tooLarge ▸ emits_raise _ _
  · exact emitted ▸ emits_deliver_singleton rfl hcap _
  · exact kept ▸ emits_deliver_nil rfl _

/-- The twelve bytes of the fixed header are not the payload's (R105, R131). -/
theorem payload_bound_of_consistent {h : Header} {maxLen : Nat} {pl : Bytes} (hc : h.consistent maxLen pl = true) :
    pl.length + 12 ≤ maxLen := by
  obtain ⟨_, _, hhlen, hend, _, hsize⟩ := consistent_iff.mp hc
  have hfixed := twelve_le_lengthOf h
  omega

theorem execParse_emits {p : Bytes} {s t : State} (ht : execParse p s = .next t) :
    Emits (unitBound s.params none) t := by
  unfold execParse at ht
  split at ht <;> cases ht
  · exact emits_raise _ s
  · next hp => exact emits_deliver_singleton rfl (payload_bound_of_consistent (parsePacket_consistent hp)) s

/-- Every instruction emits within the bound of its type. That it is well formed bounds its payload (R131). -/
theorem exec_emits {i : Instr} {s t : State} (hw : i.wellFormed s.params.maxPktLen = true) (ht : exec i s = .next t) :
    Emits (unitBound s.params (fuTypeOf s.params.maxPktLen i)) t := by
  have payloadBound {h : Header} {pl : Bytes} {row : Bool}
      (hw : (h.consistent s.params.maxPktLen pl && row) = true) : pl.length + 12 ≤ s.params.maxPktLen :=
    payload_bound_of_consistent (Bool.and_eq_true_iff.mp hw).1
  cases i with
  | reset => cases ht; exact emits_deliver_nil rfl _
  | parse p => exact execParse_emits ht
  | extract p =>
    obtain ⟨e, he⟩ := execExtract_of_wellFormed hw
    cases he.symm.trans ht
    exact emits_raise e s
  | reservedType0 | reservedType30To31 => cases ht; exact emits_deliver_nil rfl s
  | singleNalType1 | singleNalType2To3 | singleNalType4To7 | singleNalType8To15 | singleNalType16To23 =>
    cases ht; exact emits_deliver_singleton rfl (payloadBound hw) s
  | stapA | stapB | mtap16 | mtap24 =>
    cases ht; exact (aggOp_emits _ _ _ s).mono fun u hu => (Nat.add_le_add_right hu 12).trans (payloadBound hw)
  | fuA | fuB => cases ht; exact fuStep_emits _ _ _ _ _ s
  | fuAStart | fuAMiddle | fuAEnd | fuAStartEnd | fuBStart | fuBMiddle | fuBEnd | fuBStartEnd =>
    cases ht; exact fuStep_emits _ _ _ _ _ s

/-- Settles O50: what a step runs is well formed, and a well-formed instruction emits within its bound. -/
theorem emittedUnitsAreBounded : Obligations.EmittedUnitsAreBounded := by
  intro s t c i r hs hd ht hr u hu
  rw [stepRunsDecodedInstruction s c i hs hd] at ht
  have hbound := exec_emits (s := s.takeCommand) (decodedInstructionsAreWellFormed _ _ _ hd) ht r hr u hu
  cases hk : fuTypeOf s.params.maxPktLen i <;> simpa [unitBound, hk] using hbound

end Sys2Proof.Machine

/-! The aggregation packets (R102, R103, R190 to R195): spec/43_aggregation.md. -/

namespace Sys2Proof.Machine

section
variable {f : Framing} {t : AggType} {pl : Bytes}

/-! ## The four aggregation instructions -/

theorem exec_aggInstr (t : AggType) (h : Header) (pl : Bytes) (s : State) :
    exec (aggInstr t h pl) s = .next (aggOp t h pl s) := by
  cases t <;> rfl

theorem exec_of_aggWalk_error {e : Reason} {h : Header} {s : State}
    (hw : aggWalk s.params.framing t h pl = .error e) :
    exec (aggInstr t h pl) s = .next { s with result := some (errorResult e) } := by
  rw [exec_aggInstr, aggOp, hw]
  rfl

theorem exec_of_aggWalk_ok {r : Result} {h : Header} {s : State} (hw : aggWalk s.params.framing t h pl = .ok r) :
    exec (aggInstr t h pl) s = .next { s with result := some r } := by
  rw [exec_aggInstr, aggOp, hw]
  rfl

/-- The result of an aggregation is an error with nothing in it, or the SEQ result of its walk (R190, R191). -/
theorem aggInstr_result {h : Header} {s s' : State} {r : Result} (hs' : exec (aggInstr t h pl) s = .next s')
    (hr : s'.result = some r) :
    (∃ e, r = errorResult e ∧ s' = { s with result := some (errorResult e) }) ∨
    (r.status = .seq ∧ aggWalk s.params.framing t h pl = .ok r) := by
  cases (exec_aggInstr t h pl s).symm.trans hs'
  obtain ⟨e, _, hop⟩ | ⟨r', hw, hseq, hop⟩ := aggOp_cases t h pl s <;> rw [hop] at hr ⊢ <;> cases hr
  · exact .inl ⟨e, rfl, rfl⟩
  · exact .inr ⟨hseq, hw⟩

/-- The packet-level DON and timestamp offset of a payload (R38). -/
abbrev AggFields := Option (BitVec 16) × Option (BitVec 16)

/-- The SEQ result of a walk with these packet fields and entries (R37, R38). -/
def seqResult (h : Header) (fields : AggFields) (es : List (Bytes × EntryMeta)) : Result :=
  ⟨.seq, some h, es.map Prod.fst, some ⟨fields.1, fields.2, es.map Prod.snd⟩⟩

/-- The walk is its loop, with fuel for the whole payload. -/
theorem aggWalk_eq_map {h : Header} (hlen : aggStart f t ≤ pl.length) :
    aggWalk f t h pl =
      (aggLoop f t pl (packetFields f t pl).1 (packetFields f t pl).2 pl.length (aggStart f t) 0).map
        (seqResult h (packetFields f t pl)) := by
  rw [aggWalk, if_neg (Nat.not_lt.mpr hlen)]
  rcases packetFields f t pl with ⟨pdon, ptso⟩
  cases hloop : aggLoop f t pl pdon ptso pl.length (aggStart f t) 0 <;> simp only [hloop] <;> rfl

/-! ## Reading the entries that were written (R102, R103, R104) -/

theorem entryLen_append_right (f : Framing) (t : AggType) (a q : Bytes) :
    entryLen f t (a ++ q) a.length = entryLen f t q 0 := by
  have shift : be16 (a ++ q) a.length = be16 q 0 := be16_append_right a q 0
  cases f <;> cases t <;> simp only [entryLen, shift, be16_append_right, Nat.zero_add]

theorem entryMeta_append_right (f : Framing) (t : AggType) (a q : Bytes) (i : Nat) (pdon ptso : Option (BitVec 16)) :
    entryMeta f t (a ++ q) a.length i pdon ptso = entryMeta f t q 0 i pdon ptso := by
  have shift : be16 (a ++ q) a.length = be16 q 0 := be16_append_right a q 0
  cases f <;> cases t <;>
    simp only [entryMeta, shift, u8_append_right, be16_append_right, be24_append_right, Nat.zero_add]

/-- The metadata that entry `i` carries in its layout, under these packet fields (R192 to R195). -/
def writtenMeta (f : Framing) (t : AggType) (fields : AggFields) (i : Nat) (e : AggEntry) :
    EntryMeta :=
  match f, t with
  | _, .stapA => ⟨none, none⟩
  | .doc, .stapB => ⟨some e.don, fields.2.map (·.setWidth 24)⟩
  | .doc, .mtap16 => ⟨some e.don, some ((e.tso.setWidth 16).setWidth 24)⟩
  | .doc, .mtap24 => ⟨some e.don, some e.tso⟩
  | .rfc6184, .stapB => ⟨fields.1.map (· + BitVec.ofNat 16 i), none⟩
  | .rfc6184, .mtap16 => ⟨fields.1.map (· + e.dond.setWidth 16), some ((e.tso.setWidth 16).setWidth 24)⟩
  | .rfc6184, .mtap24 => ⟨fields.1.map (· + e.dond.setWidth 16), some e.tso⟩

/-- The walk reads back the metadata of an entry that was written. -/
theorem entryMeta_aggEntryBytes (f : Framing) (t : AggType) (fields : AggFields) (i : Nat)
    (e : AggEntry) (post : Bytes) :
    entryMeta f t (aggEntryBytes f t e ++ post) 0 i fields.1 fields.2 = writtenMeta f t fields i e := by
  have tso16AfterDon (v : BitVec 16) (q : Bytes) : be16 (bytes16 e.don ++ (bytes16 v ++ q)) 2 = v := be16_bytes16 v q
  have tso24AfterDon (v : BitVec 24) (q : Bytes) : be24 (bytes16 e.don ++ (bytes24 v ++ q)) 2 = v := be24_bytes24 v q
  have dondAfterSize (n : Nat) (q : Bytes) : u8 (len16 n ++ ([e.dond] ++ q)) 2 = e.dond := rfl
  have tso16AfterDond (n : Nat) (v : BitVec 16) (q : Bytes) : be16 (len16 n ++ ([e.dond] ++ (bytes16 v ++ q))) 3 = v :=
    be16_bytes16 v q
  have tso24AfterDond (n : Nat) (v : BitVec 24) (q : Bytes) : be24 (len16 n ++ ([e.dond] ++ (bytes24 v ++ q))) 3 = v :=
    be24_bytes24 v q
  cases f <;> cases t <;>
    simp only [entryMeta, writtenMeta, aggEntryBytes, List.append_assoc, Nat.zero_add, be16_bytes16, tso16AfterDon,
      tso24AfterDon, dondAfterSize, tso16AfterDond, tso24AfterDond]

/-- The packet fields of a payload that these were written to: those its layout has. -/
def writtenFields (f : Framing) (t : AggType) (pdon ptso : BitVec 16) : AggFields :=
  match f, t with
  | _, .stapA => (none, none)
  | .doc, .stapB => (some pdon, some ptso)
  | .doc, .mtap16 => (none, none)
  | .doc, .mtap24 => (none, none)
  | .rfc6184, .stapB => (some pdon, none)
  | .rfc6184, .mtap16 => (some pdon, none)
  | .rfc6184, .mtap24 => (some pdon, none)

theorem packetFields_written (f : Framing) (t : AggType) (b : Byte) (pdon ptso : BitVec 16) (post : Bytes) :
    packetFields f t ([b] ++ aggPacketBytes f t pdon ptso ++ post) = writtenFields f t pdon ptso := by
  have readPdon (q : Bytes) : be16 ([b] ++ (bytes16 pdon ++ q)) 1 = pdon := be16_bytes16 pdon q
  have readPtso (q : Bytes) : be16 ([b] ++ (bytes16 pdon ++ (bytes16 ptso ++ q))) 3 = ptso := be16_bytes16 ptso q
  cases f <;> cases t <;>
    simp only [packetFields, writtenFields, aggPacketBytes, List.append_assoc, readPdon, readPtso]

theorem encodeAgg_length (f : Framing) (t : AggType) (b : Byte) (pdon ptso : BitVec 16) (es : List AggEntry) :
    (encodeAgg f t b pdon ptso es).length = aggStart f t + (es.map fun e => aggHdr f t + e.unit.length).sum := by
  simp only [encodeAgg, List.length_append, List.length_flatMap, aggEntryBytes_length, List.length_singleton,
    Nat.add_comm 1, aggPacketBytes_length]

/-! ## The walk over entries that were written (R190) -/

/-- An entry whose unit is not empty and fits its layout's size field, which under RFC6184 counts DOND and TSO too. -/
def EntryFits (f : Framing) (t : AggType) (e : AggEntry) : Prop :=
  1 ≤ e.unit.length ∧ e.unit.length + (aggHdr f t - aggPfx f t) ≤ 65535

/-- The unit and the metadata that entry `i` gives. -/
def writtenEntry (f : Framing) (t : AggType) (fields : AggFields) (i : Nat)
    (e : AggEntry) : Bytes × EntryMeta :=
  (e.unit, writtenMeta f t fields i e)

/-- `aggLoop_good` with the payload's length as the fuel on both sides. -/
theorem aggLoop_step {pdon ptso : Option (BitVec 16)} {o i : Nat} (hl : 1 ≤ entryLen f t pl o)
    (hb : o + aggHdr f t + entryLen f t pl o ≤ pl.length) :
    aggLoop f t pl pdon ptso pl.length o i =
      (aggLoop f t pl pdon ptso pl.length (o + aggHdr f t + entryLen f t pl o) (i + 1)).map
        ((slice pl (o + aggHdr f t) (o + aggHdr f t + entryLen f t pl o), entryMeta f t pl o i pdon ptso) :: ·) := by
  rw [aggLoop_fuel_irrelevant (fuel' := pl.length + 1) (by omega) (by omega), aggLoop_good hl hb]
  cases aggLoop f t pl pdon ptso pl.length (o + aggHdr f t + entryLen f t pl o) (i + 1) <;> rfl

section
variable {fields : AggFields} {es : List AggEntry} {post : Bytes}

/-- One entry that was written is one step of the walk. -/
theorem aggLoop_aggEntryBytes {e : AggEntry} {a : Bytes} {i : Nat} (he : EntryFits f t e)
    (hpl : pl = a ++ aggEntryBytes f t e ++ post) :
    aggLoop f t pl fields.1 fields.2 pl.length a.length i =
      (aggLoop f t pl fields.1 fields.2 pl.length (a ++ aggEntryBytes f t e).length (i + 1)).map
        (writtenEntry f t fields i e :: ·) := by
  obtain ⟨hlen, hslice⟩ := aggEntry_read f t e a post he.2
  have hmeta : entryMeta f t (a ++ aggEntryBytes f t e ++ post) a.length i fields.1 fields.2 =
      writtenMeta f t fields i e := by
    rw [List.append_assoc, entryMeta_append_right, entryMeta_aggEntryBytes]
  rw [← hpl] at hlen hslice hmeta
  have hend : (a ++ aggEntryBytes f t e).length = a.length + aggHdr f t + e.unit.length := by
    rw [List.length_append, aggEntryBytes_length, Nat.add_assoc]
  have hin : a.length + aggHdr f t + e.unit.length ≤ pl.length := by
    rw [hpl, List.length_append, hend]
    exact Nat.le_add_right _ _
  rw [aggLoop_step (hlen ▸ he.1) (hlen ▸ hin), hlen, hslice, hmeta, hend]
  rfl

/-- The walk passes over any number of entries that were written. -/
theorem aggLoop_entries (hes : ∀ e ∈ es, EntryFits f t e) :
    ∀ {a : Bytes} {i : Nat}, pl = a ++ es.flatMap (aggEntryBytes f t) ++ post →
      aggLoop f t pl fields.1 fields.2 pl.length a.length i =
        (aggLoop f t pl fields.1 fields.2 pl.length (a ++ es.flatMap (aggEntryBytes f t)).length (i + es.length)).map
          ((es.mapIdx fun j => writtenEntry f t fields (i + j)) ++ ·) := by
  induction es with
  | nil =>
    intro a i _
    simp only [List.flatMap_nil, List.append_nil]
    exact (congrFun Except.map_id _).symm
  | cons e es ih =>
    intro a i hpl
    obtain ⟨he, hrest⟩ := List.forall_mem_cons.mp hes
    rw [List.flatMap_cons, ← List.append_assoc] at hpl ⊢
    rw [aggLoop_aggEntryBytes he (by rw [hpl, List.append_assoc]), ih hrest hpl, List.length_cons, List.mapIdx_cons]
    simp only [Nat.add_assoc, Nat.add_comm 1]
    cases aggLoop f t pl fields.1 fields.2 pl.length
      (a ++ aggEntryBytes f t e ++ es.flatMap (aggEntryBytes f t)).length (i + (es.length + 1)) <;> rfl

/-- After the entries that were written the walk goes on with what follows them. -/
theorem aggWalk_encodeAgg_append {h : Header} {b : Byte} {pdon ptso : BitVec 16} (hes : ∀ e ∈ es, EntryFits f t e)
    (hfields : writtenFields f t pdon ptso = fields) (hpl : pl = encodeAgg f t b pdon ptso es ++ post) :
    aggWalk f t h pl =
      (aggLoop f t pl fields.1 fields.2 pl.length (encodeAgg f t b pdon ptso es).length es.length).map
        fun rest => seqResult h fields (es.mapIdx (writtenEntry f t fields) ++ rest) := by
  have hread : packetFields f t pl = fields := by
    rw [hpl, encodeAgg, List.append_assoc, packetFields_written, hfields]
  have hstart : aggStart f t = ([b] ++ aggPacketBytes f t pdon ptso).length := by
    rw [List.length_append, List.length_singleton, Nat.add_comm, aggPacketBytes_length]
  have hin : aggStart f t ≤ pl.length := by
    rw [hpl, List.length_append, encodeAgg_length, Nat.add_assoc]
    exact Nat.le_add_right _ _
  rw [aggWalk_eq_map hin, hread, hstart, aggLoop_entries hes hpl]
  simp only [Nat.zero_add]
  rw [encodeAgg]
  cases aggLoop f t pl fields.1 fields.2 pl.length
    ([b] ++ aggPacketBytes f t pdon ptso ++ es.flatMap (aggEntryBytes f t)).length es.length <;> rfl

/-! ## What was written comes back (R192 to R195) -/

theorem map_mapIdx {α β γ : Type} (l : List α) (F : Nat → α → β) (g : β → γ) :
    (l.mapIdx F).map g = l.mapIdx fun i a => g (F i a) :=
  (List.mapIdx_eq_iff.mpr fun i => by simp [Function.comp_def]).symm

theorem mapIdx_eq_map {α β : Type} {l : List α} {F : Nat → α → β} {g : α → β}
    (h : ∀ a ∈ l, ∀ i, F i a = g a) : l.mapIdx F = l.map g :=
  List.mapIdx_eq_iff.mpr fun i => by
    cases hi : l[i]? with
    | none => simp [hi]
    | some a => simp [hi, h a (List.mem_of_getElem? hi) i]

/-- A payload of written entries answers SEQ with their units and metadata. -/
theorem exec_encodeAgg {s : State} {h : Header} {b : Byte} {pdon ptso : BitVec 16} {ms : List EntryMeta}
    (hf : s.params.framing = f) (hes : ∀ e ∈ es, EntryFits f t e) (hfields : writtenFields f t pdon ptso = fields)
    (hms : es.mapIdx (writtenMeta f t fields) = ms) :
    exec (aggInstr t h (encodeAgg f t b pdon ptso es)) s =
      .next { s with result := some ⟨.seq, some h, es.map AggEntry.unit, some ⟨fields.1, fields.2, ms⟩⟩ } := by
  subst hf hms
  have hunits : (es.mapIdx (writtenEntry s.params.framing t fields)).map Prod.fst = es.map AggEntry.unit :=
    (map_mapIdx _ _ _).trans (mapIdx_eq_map fun _ _ _ => rfl)
  have hmetas : (es.mapIdx (writtenEntry s.params.framing t fields)).map Prod.snd =
      es.mapIdx (writtenMeta s.params.framing t fields) := map_mapIdx _ _ _
  have hw := aggWalk_encodeAgg_append (h := h) hes hfields (List.append_nil (encodeAgg _ t b pdon ptso es)).symm
  rw [aggLoop_at_end le_rfl, Except.map, List.append_nil, seqResult, hunits, hmetas] at hw
  exact exec_of_aggWalk_ok hw

end

/-! ## The first bad entry (R190, R273) -/

/-- The error of bytes that are no whole entry, after `i` entries. -/
def tailError (f : Framing) (t : AggType) (i : Nat) (bad : Bytes) : Reason :=
  if bad.length < aggPfx f t then if i = 0 then .truncatedPrefix else .trailingBytes
  else if entryLen f t bad 0 = 0 then .emptyEntry
  else .entryOverrun

/-- The walk raises at bytes that are no whole entry, whatever entries came before them. -/
theorem aggLoop_bad_tail {pdon ptso : Option (BitVec 16)} {a bad : Bytes} {i : Nat} (hpl : pl = a ++ bad)
    (hne : 1 ≤ bad.length) (hbad : entryLen f t bad 0 = 0 ∨ bad.length < aggHdr f t + entryLen f t bad 0) :
    aggLoop f t pl pdon ptso pl.length a.length i = .error (tailError f t i bad) := by
  have hlen : pl.length = a.length + bad.length := hpl ▸ List.length_append
  have hleft : pl.length - a.length = bad.length := by omega
  have hread : entryLen f t pl a.length = entryLen f t bad 0 := hpl ▸ entryLen_append_right f t a bad
  rw [aggLoop_fuel_irrelevant (fuel' := pl.length + 1) (by omega) (by omega), tailError]
  obtain ⟨hshort, herr⟩ | ⟨hpfx, hempty, herr⟩ | ⟨hpfx, hunit, _, herr⟩ | ⟨hunit, hin, _⟩ :=
    aggLoop_entry (f := f) (t := t) (pdon := pdon) (ptso := ptso) (fuel := pl.length) (i := i)
      (show a.length < pl.length by omega)
  · rw [if_pos (by omega), herr]
  · rw [if_neg (by omega), if_pos (by omega), herr]
  · rw [if_neg (by omega), if_neg (by omega), herr]
  · omega

theorem exec_encodeAgg_append_bad {s : State} {h : Header} {b : Byte} {pdon ptso : BitVec 16} {es : List AggEntry}
    {bad : Bytes} (hf : s.params.framing = f) (hes : ∀ e ∈ es, EntryFits f t e) (hne : 1 ≤ bad.length)
    (hbad : entryLen f t bad 0 = 0 ∨ bad.length < aggHdr f t + entryLen f t bad 0) :
    exec (aggInstr t h (encodeAgg f t b pdon ptso es ++ bad)) s =
      .next { s with result := some (errorResult (tailError f t es.length bad)) } := by
  subst hf
  apply exec_of_aggWalk_error
  rw [aggWalk_encodeAgg_append hes rfl rfl, aggLoop_bad_tail rfl hne hbad]
  rfl

/-! ## A walk that succeeds read an encoding (R190) -/

/-- The entry that stands at `o`, with every field its layout has. -/
def entryAt (f : Framing) (t : AggType) (pl : Bytes) (o : Nat) : AggEntry where
  unit := slice pl (o + aggHdr f t) (o + aggHdr f t + entryLen f t pl o)
  don := be16 pl o
  dond := u8 pl (o + 2)
  tso := ((entryMeta f t pl o 0 none none).tso).getD 0

theorem singleton_u8 {s : Bytes} {a : Nat} (h : a < s.length) : [u8 s a] = slice s a (a + 1) := by
  rw [slice, drop_eq_u8_cons h, Nat.add_sub_cancel_left]
  rfl

theorem len16_be16 {s : Bytes} {a : Nat} (h : a + 2 ≤ s.length) : len16 (be16 s a).toNat = slice s a (a + 2) := by
  rw [len16, BitVec.ofNat_toNat, BitVec.setWidth_eq, bytes16_be16 h]

/-- Written out again, a good entry is the bytes that the walk passes over: its fields are adjacent slices. -/
theorem aggEntryBytes_entryAt {o : Nat} (hl : 1 ≤ entryLen f t pl o)
    (hin : o + aggHdr f t + entryLen f t pl o ≤ pl.length) :
    aggEntryBytes f t (entryAt f t pl o) = slice pl o (o + aggHdr f t + entryLen f t pl o) := by
  have hlen : (entryAt f t pl o).unit.length = entryLen f t pl o := by
    rw [entryAt, slice_length]
    omega
  have narrow (v : BitVec 16) : (v.setWidth 24).setWidth 16 = v := by simp
  cases f <;> cases t <;> simp only [aggEntryBytes, hlen] <;>
    simp only [entryAt, entryMeta, aggHdr, entryLen, Option.getD_some] at hl hin ⊢ <;>
    simp (disch := omega) only [narrow, Nat.sub_add_cancel, len16_be16, bytes16_be16, bytes24_be24, singleton_u8,
      slice_append_slice]

/-- Written out again, the first byte and the packet fields are the payload up to START. -/
theorem aggPacketBytes_read (hin : aggStart f t ≤ pl.length) :
    [u8 pl 0] ++ aggPacketBytes f t (be16 pl 1) (be16 pl 3) = slice pl 0 (aggStart f t) := by
  cases f <;> cases t <;> simp only [aggPacketBytes, aggStart] at hin ⊢ <;>
    simp (disch := omega) only [bytes16_be16, singleton_u8, slice_append_slice, List.append_nil]

/-- What a walk that succeeds found at an offset inside the payload: a good entry, and then a walk that succeeds. -/
theorem aggLoop_ok_inside {pdon ptso : Option (BitVec 16)} {fuel o i : Nat} {us : List (Bytes × EntryMeta)}
    (ho : o < pl.length) (hok : aggLoop f t pl pdon ptso (fuel + 1) o i = .ok us) :
    1 ≤ entryLen f t pl o ∧ o + aggHdr f t + entryLen f t pl o ≤ pl.length ∧
      ∃ rest, aggLoop f t pl pdon ptso fuel (o + aggHdr f t + entryLen f t pl o) (i + 1) = .ok rest ∧
        us = ((entryAt f t pl o).unit, entryMeta f t pl o i pdon ptso) :: rest := by
  obtain ⟨_, bad⟩ | ⟨_, _, bad⟩ | ⟨_, _, _, bad⟩ | ⟨hl, hin, good⟩ :=
    aggLoop_entry (f := f) (t := t) (pdon := pdon) (ptso := ptso) (fuel := fuel) (i := i) ho
  · cases bad.symm.trans hok
  · cases bad.symm.trans hok
  · cases bad.symm.trans hok
  · rw [good] at hok
    split at hok <;> cases hok
    next rest hrest => exact ⟨hl, hin, rest, hrest, rfl⟩

/-- From the offset of a walk that succeeds on, the payload is the entries that it emits. -/
theorem aggLoop_ok_encodes {pdon ptso : Option (BitVec 16)} :
    ∀ {fuel o i : Nat} {us : List (Bytes × EntryMeta)}, pl.length ≤ o + fuel → o ≤ pl.length →
      aggLoop f t pl pdon ptso fuel o i = .ok us →
      ∃ es : List AggEntry, pl.drop o = es.flatMap (aggEntryBytes f t) ∧ us.map Prod.fst = es.map AggEntry.unit ∧
        ∀ e ∈ es, 1 ≤ e.unit.length := by
  intro fuel
  induction fuel with
  | zero =>
    intro o i us hfuel hle hok
    cases hok
    exact ⟨[], List.drop_eq_nil_of_le (by omega), rfl, List.forall_mem_nil _⟩
  | succ n ih =>
    intro o i us hfuel hle hok
    by_cases ho : o < pl.length
    · obtain ⟨hl, hin, rest, hrest, rfl⟩ := aggLoop_ok_inside ho hok
      obtain ⟨es, hdrop, hunits, hne⟩ := ih (by omega) hin hrest
      refine ⟨entryAt f t pl o :: es, ?_, congrArg _ hunits, List.forall_mem_cons.mpr ⟨?_, hne⟩⟩
      · rw [List.flatMap_cons, ← hdrop, aggEntryBytes_entryAt hl hin, ← slice_to_end, ← slice_to_end,
          slice_append_slice _ (by omega) hin]
      · rw [entryAt, slice_length]
        omega
    · rw [aggLoop_at_end (by omega)] at hok
      cases hok
      exact ⟨[], List.drop_eq_nil_of_le (by omega), rfl, List.forall_mem_nil _⟩

/-- A walk that succeeds read an encoding of the entries that it emits. -/
theorem aggWalk_ok_encodes {h : Header} {r : Result} (hw : aggWalk f t h pl = .ok r) :
    ∃ pdon ptso es, pl = encodeAgg f t (u8 pl 0) pdon ptso es ∧ r.units = es.map AggEntry.unit ∧
      ∀ e ∈ es, 1 ≤ e.unit.length := by
  obtain ⟨hstart, us, hloop, rfl⟩ := aggWalk_ok hw
  obtain ⟨es, hdrop, hunits, hne⟩ := aggLoop_ok_encodes (Nat.le_add_left _ _) hstart hloop
  refine ⟨be16 pl 1, be16 pl 3, es, ?_, hunits, hne⟩
  rw [encodeAgg, aggPacketBytes_read hstart, ← hdrop]
  exact (List.take_append_drop _ pl).symm

end

/-! ## The obligations -/

/-- Settles O36: an aggregation's result is an error with nothing in it, or SEQ, which is no error. -/
theorem aggErrorsEmitNothing : Obligations.AggErrorsEmitNothing := by
  intro t h pl s s' r e hs' hr he
  obtain ⟨e', rfl, rfl⟩ | ⟨hseq, _⟩ := aggInstr_result hs' hr
  · cases he
    rfl
  · cases hseq.symm.trans he

/-- Settles O38: the length check is the walk's first. -/
theorem shortAggregationRaises : Obligations.ShortAggregationRaises :=
  fun _ _ _ _ hshort => exec_of_aggWalk_error (if_pos hshort)

/-- A STAP-A entry with this unit: its layout writes no other field. -/
def unitEntry (u : Bytes) : AggEntry := ⟨u, 0#16, 0#8, 0#24⟩

/-- Settles O30: the payload is the encoding of entries with these units, which `exec_encodeAgg` gives back. -/
theorem stapAGivesBackItsUnits : Obligations.StapAGivesBackItsUnits := by
  intro h b us s hus
  have hpl : encodeAgg s.params.framing .stapA b 0#16 0#16 (us.map unitEntry) =
      [b] ++ us.flatMap fun u => len16 u.length ++ u := by
    rw [encodeAgg, List.flatMap_map]
    cases s.params.framing <;> rfl
  have hfits : ∀ e ∈ us.map unitEntry, EntryFits s.params.framing .stapA e :=
    List.forall_mem_map.mpr fun u hu => by cases s.params.framing <;> exact hus u hu
  have hfields : writtenFields s.params.framing .stapA 0#16 0#16 = (none, none) := by
    cases s.params.framing <;> rfl
  have hmetas : (us.map unitEntry).mapIdx (writtenMeta s.params.framing .stapA (none, none)) =
      us.map fun _ => ⟨none, none⟩ :=
    (mapIdx_eq_map fun _ _ _ => by cases s.params.framing <;> rfl).trans List.map_map
  have hunits : (us.map unitEntry).map AggEntry.unit = us := List.map_map.trans (List.map_id us)
  have hexec := exec_encodeAgg (h := h) (b := b) rfl hfits hfields hmetas
  rwa [hpl, hunits] at hexec

/-- DONs wrap at 16 bits (R193). -/
theorem add_ofNat_eq_ofNat_toNat_add (v : BitVec 16) (n : Nat) :
    v + BitVec.ofNat 16 n = BitVec.ofNat 16 (v.toNat + n) := by
  rw [BitVec.ofNat_add, BitVec.ofNat_toNat, BitVec.setWidth_eq]

/-- Settles O31: `exec_encodeAgg` under each framing; the DONs under RFC6184 depend on the entry's number alone. -/
theorem stapBGivesBackItsUnits : Obligations.StapBGivesBackItsUnits := by
  intro h b pdon ptso es s hes
  refine ⟨fun hf => ?_, fun hf => ?_⟩
  · exact exec_encodeAgg (t := .stapB) hf hes rfl (mapIdx_eq_map fun _ _ _ => rfl)
  · refine exec_encodeAgg (t := .stapB) hf hes rfl (congrArg (List.mapIdx · es) (funext₂ fun i _ => ?_))
    simp only [writtenMeta, writtenFields, Option.map_some, add_ofNat_eq_ofNat_toNat_add]

/-- DOND is zero-extended before it is added (R194, R195). -/
theorem add_setWidth_eq_ofNat_toNat_add (v : BitVec 16) (d : Byte) :
    v + d.setWidth 16 = BitVec.ofNat 16 (v.toNat + d.toNat) := by
  rw [← add_ofNat_eq_ofNat_toNat_add, BitVec.ofNat_toNat]

/-- A 16-bit offset is zero-extended (log 11). -/
theorem setWidth_setWidth_of_lt {v : BitVec 24} (hv : v.toNat < 65536) : (v.setWidth 16).setWidth 24 = v := by
  apply BitVec.eq_of_toNat_eq
  simp only [BitVec.toNat_setWidth]
  omega

/-- Settles O32: `exec_encodeAgg` under each framing; the metadata of an entry does not depend on its number. -/
theorem mtapSixteenGivesBackItsUnits : Obligations.MtapSixteenGivesBackItsUnits := by
  intro h b pdon ptso es s hes
  refine ⟨fun hf hmax => ?_, fun hf hmax => ?_⟩ <;>
    refine exec_encodeAgg (t := .mtap16) hf (fun e he => ⟨(hes e he).1, hmax e he⟩) rfl
      (mapIdx_eq_map fun e he _ => ?_)
  · simp only [writtenMeta, setWidth_setWidth_of_lt (hes e he).2]
  · simp only [writtenMeta, writtenFields, Option.map_some, add_setWidth_eq_ofNat_toNat_add,
      setWidth_setWidth_of_lt (hes e he).2]

/-- Settles O33: as for MTAP16, with offsets of the record's own width. -/
theorem mtapTwentyFourGivesBackItsUnits : Obligations.MtapTwentyFourGivesBackItsUnits := by
  intro h b pdon ptso es s hes
  refine ⟨fun hf hmax => ?_, fun hf hmax => ?_⟩ <;>
    refine exec_encodeAgg (t := .mtap24) hf (fun e he => ⟨hes e he, hmax e he⟩) rfl
      (mapIdx_eq_map fun e he _ => ?_)
  · rfl
  · simp only [writtenMeta, writtenFields, Option.map_some, add_setWidth_eq_ofNat_toNat_add]

/-- Settles O37: each clause is a branch of `tailError`. -/
theorem aggRaisesAtTheFirstBadEntry : Obligations.AggRaisesAtTheFirstBadEntry := by
  intro f t h b pdon ptso es bad s hf hes
  have hpfx := aggPfx_pos f t
  have hhdr := aggPfx_le_aggHdr f t
  refine ⟨fun hne hshort => ?_, fun hwhole hempty => ?_, fun hwhole hunit hover => ?_⟩
  · rw [exec_encodeAgg_append_bad hf hes hne (.inr (by omega)), tailError, if_pos hshort]
    simp only [List.length_eq_zero_iff]
  · rw [exec_encodeAgg_append_bad hf hes (by omega) (.inl hempty), tailError, if_neg (by omega), if_pos hempty]
  · rw [exec_encodeAgg_append_bad hf hes (by omega) (.inr hover), tailError, if_neg (by omega), if_neg (by omega)]

/-- Settles O34: a SEQ result is the walk's, which read an encoding. -/
theorem aggSuccessMeansAnEncoding : Obligations.AggSuccessMeansAnEncoding := by
  intro t h pl s s' r hs' hr hseq
  obtain ⟨e, rfl, _⟩ | ⟨_, hw⟩ := aggInstr_result hs' hr
  · cases hseq
  · exact aggWalk_ok_encodes hw

/-- Settles O35: the payload is an encoding of the emitted units, whose length is START and the entries'. -/
theorem aggWalkConsumesThePayload : Obligations.AggWalkConsumesThePayload := by
  intro t h pl s s' r hs' hr hseq
  obtain ⟨pdon, ptso, es, hpl, hunits, _⟩ := aggSuccessMeansAnEncoding t h pl s s' r hs' hr hseq
  rw [hunits, List.map_map, congrArg List.length hpl, encodeAgg_length]
  rfl

end Sys2Proof.Machine

/-! The fragmentation units and the reassembly machine (R231 to R240): spec/44_fragmentation.md. -/

namespace Sys2Proof.Machine

/-! ## The reconstructed header byte (R232) -/

/-- The mask 0xE0 keeps the top three bits in their place. -/
theorem and_E0_toNat (b : Byte) : (b &&& 0xE0).toNat = 2 ^ 5 * (b.toNat / 32) := by
  revert b
  decide +kernel

/-- OTYPE, widened, is the low five bits (R99). -/
theorem fuOtype_setWidth_toNat (b : Byte) : ((fuOtype b).setWidth 8).toNat = b.toNat % 32 :=
  (BitVec.toNat_setWidth_of_le (by decide)).trans (nalType_toNat b)

/-- Settles O44: the two parts share no bit, so their OR is their sum. -/
theorem reconstructedHeaderBits : Obligations.ReconstructedHeaderBits := by
  intro ind fuHdr
  have hlow : fuHdr.toNat % 32 < 2 ^ 5 := Nat.mod_lt _ (by decide)
  rw [reconHeader, BitVec.toNat_or, fuOtype_setWidth_toNat, and_E0_toNat, ← Nat.two_pow_add_eq_or_of_lt hlow]
  omega

/-! ## Running a fragment (R231, R237, R240) -/

section
variable {k : FuType} {start stop : Bool} {h : Header} {pl nb buf : Bytes} {s : State}

/-- Both rows of a fragment run `Fu` with its start and end bits. -/
theorem exec_of_isFragment {i : Instr} (hi : isFragment i k start stop h pl) (s : State) :
    exec i s = .next (fuStep k start stop h pl s) := by
  obtain rfl | ⟨rfl, rfl, rfl⟩ := hi
  · exact exec_fuSub k start stop h pl s
  · exact exec_fuWhole k h pl s

theorem fuStep_of_short (hlen : pl.length < fuHeaderLen s.params.framing k) :
    fuStep k start stop h pl s = s.raise .shortFuHeader := if_pos hlen

theorem fuStep_of_orphan (hlen : fuHeaderLen s.params.framing k ≤ pl.length) (hidle : s.fu k = .idle) :
    fuStep k false stop h pl s = s.raise .orphanedFragment := by
  simp only [fuStep, if_neg (Nat.not_lt.mpr hlen), hidle]
  rfl

theorem fuStep_of_nextBuffer (hlen : fuHeaderLen s.params.framing k ≤ pl.length)
    (hnb : fuNextBuffer start (s.fu k) pl (pl.drop (fuHeaderLen s.params.framing k)) = .ok nb) :
    fuStep k start stop h pl s = fuFinish k stop h nb s := by
  simp only [fuStep, if_neg (Nat.not_lt.mpr hlen), slice_to_end, hnb]

/-- A start fragment seeds the new buffer with the reconstructed header byte, whatever the machine holds (R233). -/
theorem fuStep_start (hlen : fuHeaderLen s.params.framing k ≤ pl.length) : fuStep k true stop h pl s =
    fuFinish k stop h (reconHeader (u8 pl 0) (u8 pl 1) :: pl.drop (fuHeaderLen s.params.framing k)) s :=
  fuStep_of_nextBuffer hlen rfl

/-- A middle or end fragment extends the open run (R234). -/
theorem fuStep_continue (hlen : fuHeaderLen s.params.framing k ≤ pl.length) (hopen : s.fu k = .accumulating buf) :
    fuStep k false stop h pl s = fuFinish k stop h (buf ++ pl.drop (fuHeaderLen s.params.framing k)) s :=
  fuStep_of_nextBuffer hlen (hopen ▸ rfl)

/-! ## The new buffer within the cap (R233 to R236) -/

@[simp] theorem fuFinish_params (k : FuType) (stop : Bool) (h : Header) (nb : Bytes) (s : State) :
    (fuFinish k stop h nb s).params = s.params := by
  simp only [fuFinish]
  split_ifs <;> simp

variable (hcap : capAdmits s.params.fuBufCap nb.length = true)
include hcap

theorem fuFinish_end : fuFinish k true h nb s = (s.setFu k .idle).deliver ⟨.one, some h, [nb], none⟩ := if_pos hcap

theorem fuFinish_keep :
    fuFinish k false h nb s = (s.setFu k (.accumulating nb)).deliver ⟨.nothingAbsorbed, some h, [], none⟩ := if_pos hcap

theorem fu_fuFinish_keep : (fuFinish k false h nb s).fu k = .accumulating nb := by
  rw [fuFinish_keep hcap, fu_deliver, fu_setFu_self]

/-- The next fragment's outcome overwrites all that the fragment before it wrote. -/
theorem fuFinish_fuFinish_keep {h' : Header} {nb' : Bytes} :
    fuFinish k stop h' nb' (fuFinish k false h nb s) = fuFinish k stop h' nb' s := by
  rw [fuFinish_keep hcap]
  simp [fuFinish, State.raise]

end

/-- A cap that admits a buffer admits a shorter one. -/
theorem capAdmits_mono {c : BufCap} {m n : Nat} (hmn : m ≤ n) (hn : capAdmits c n = true) : capAdmits c m = true := by
  cases c with
  | bytes cap => exact decide_eq_true (hmn.trans (of_decide_eq_true hn))
  | inf => rfl

/-! ## One fragment -/

/-- Settles O43: the length check is the first; FUHL is the table's number. -/
theorem shortFragmentRaises : Obligations.ShortFragmentRaises := by
  intro i k start stop h pl s hi hshort
  have hlen : pl.length < fuHeaderLen s.params.framing k := by
    cases k <;> cases hf : s.params.framing <;> simpa [fuHeaderLen, hf] using hshort
  rw [exec_of_isFragment hi, fuStep_of_short hlen]
  rfl

/-- Settles O42: an idle machine has no run to extend. -/
theorem orphanedFragmentRaises : Obligations.OrphanedFragmentRaises := by
  intro i k stop h pl s hi hlen hidle
  rw [exec_of_isFragment hi, fuStep_of_orphan hlen hidle]
  exact ⟨rfl, rfl⟩

/-- Settles O39: a start fragment's buffer, kept when the cap admits it. -/
theorem startFragmentOpensARun : Obligations.StartFragmentOpensARun := by
  rintro i k h pl s hi hlen nb rfl
  rw [exec_of_isFragment hi, fuStep_start hlen, fuFinish, apply_ite Host.Outcome.next]
  rfl

/-- Settles O41: a start fragment's buffer, emitted when the cap admits it. -/
theorem startEndFragmentEmitsAtOnce : Obligations.StartEndFragmentEmitsAtOnce := by
  rintro i k h pl s hi hlen nb rfl
  rw [exec_of_isFragment hi, fuStep_start hlen, fuFinish, apply_ite Host.Outcome.next]
  rfl

/-- Settles O40: the run and the fragment, emitted at an end and kept in the middle, when the cap admits them. -/
theorem continuedRunGrowsAndCloses : Obligations.ContinuedRunGrowsAndCloses := by
  rintro i k stop h pl s buf hi hlen hopen nb rfl
  rw [exec_of_isFragment hi, fuStep_continue hlen hopen, fuFinish, apply_ite Host.Outcome.next]
  cases stop <;> rfl

/-! ## The fragments of a NAL unit (R99 to R101) -/

/-- The fields of an FU header are those it was given (R99). -/
theorem fuHeaderByte_fields (start stop : Bool) (nal : Byte) :
    fuS (fuHeaderByte start stop nal) = start ∧ fuE (fuHeaderByte start stop nal) = stop ∧
      fuOtype (fuHeaderByte start stop nal) = nalType nal := by
  have key : ∀ (start stop : Bool) (t : BitVec 5),
      let b : Byte := BitVec.ofBool start ++ BitVec.ofBool stop ++ 0#1 ++ t
      fuS b = start ∧ fuE b = stop ∧ fuOtype b = t := by decide +kernel
  exact key start stop (nalType nal)

/-- The header byte of a unit comes back from its FU indicator and FU header (R232). -/
theorem reconHeader_fuIndicator (k : FuType) (start stop : Bool) (nal : Byte) :
    reconHeader (fuIndicator k nal) (fuHeaderByte start stop nal) = nal := by
  have parts : ∀ b : Byte, (fuIndicator k b &&& 0xE0) ||| (nalType b).setWidth 8 = b := by
    cases k <;> decide +kernel
  obtain ⟨_, _, htype⟩ := fuHeaderByte_fields start stop nal
  rw [reconHeader, htype]
  exact parts nal

section
variable {k : FuType} {start stop : Bool} {nal : Byte} {skip frag : Bytes}

/-- A fragment's payload is FUHL bytes and then the fragment. -/
theorem fuPayload_split {n : Nat} (hskip : skip.length + 2 = n) :
    n ≤ (fuPayload k nal start stop skip frag).length ∧ (fuPayload k nal start stop skip frag).drop n = frag := by
  subst hskip
  simp [fuPayload]

/-- A fragment's payload is a fragment with the bits its FU header was given. -/
theorem isFragment_fuPayload (h : Header) :
    isFragment (fuWhole k h (fuPayload k nal start stop skip frag)) k start stop h
      (fuPayload k nal start stop skip frag) :=
  have ⟨hstart, hstop, _⟩ := fuHeaderByte_fields start stop nal
  .inr ⟨rfl, hstart, hstop⟩

variable {s : State} (h : Header) (hskip : skip.length + 2 = fuHeaderLen s.params.framing k)
include hskip

/-- The start fragment of a unit begins a run with the unit's own header byte (R233). -/
theorem exec_start_fuPayload :
    exec (fuWhole k h (fuPayload k nal true stop skip frag)) s = .next (fuFinish k stop h (nal :: frag) s) := by
  obtain ⟨hlen, hdrop⟩ := fuPayload_split hskip
  rw [exec_of_isFragment (isFragment_fuPayload h), fuStep_start hlen, hdrop]
  exact congrArg (fun b => Host.Outcome.next (fuFinish k stop h (b :: frag) s))
    (reconHeader_fuIndicator k true stop nal)

/-- A later fragment of a unit extends the open run (R234). -/
theorem exec_continue_fuPayload {buf : Bytes} (hopen : s.fu k = .accumulating buf) :
    exec (fuWhole k h (fuPayload k nal false stop skip frag)) s = .next (fuFinish k stop h (buf ++ frag) s) := by
  obtain ⟨hlen, hdrop⟩ := fuPayload_split hskip
  rw [exec_of_isFragment (isFragment_fuPayload h), fuStep_continue hlen hopen, hdrop]

end

/-! ## Reassembly (R238, R239) -/

theorem execAll_cons_of_next {i : Instr} {is : List Instr} {s t : State} (hi : exec i s = .next t) :
    execAll (i :: is) s = execAll is t := by
  rw [execAll, hi]

/-- The middle fragments and the end fragment of an open run emit it with all their fragments, by induction over the
middle ones: each leaves the run open with its own fragment added. -/
theorem execAll_continue {k : FuType} {nal : Byte} {h1 : Header} {skip1 last : Bytes} {c : Params}
    {mids : List (Header × Bytes × Bytes)} (hskip1 : skip1.length + 2 = fuHeaderLen c.framing k)
    (hskips : ∀ m ∈ mids, m.2.1.length + 2 = fuHeaderLen c.framing k) :
    ∀ {buf : Bytes} {s : State}, s.params = c → s.fu k = .accumulating buf →
      capAdmits c.fuBufCap (buf ++ mids.flatMap (·.2.2) ++ last).length = true →
      execAll ((mids.map fun m => fuWhole k m.1 (fuPayload k nal false false m.2.1 m.2.2)) ++
          [fuWhole k h1 (fuPayload k nal false true skip1 last)]) s =
        .next (fuFinish k true h1 (buf ++ mids.flatMap (·.2.2) ++ last) s) := by
  induction mids with
  | nil =>
    rintro buf s rfl hopen -
    rw [List.flatMap_nil, List.append_nil]
    exact execAll_cons_of_next (exec_continue_fuPayload h1 hskip1 hopen)
  | cons m mids ih =>
    rintro buf s rfl hopen hcap
    obtain ⟨hskip, hskips⟩ := List.forall_mem_cons.mp hskips
    rw [List.flatMap_cons, ← List.append_assoc buf] at hcap ⊢
    have hkept : capAdmits s.params.fuBufCap (buf ++ m.2.2).length = true :=
      capAdmits_mono (by simp only [List.length_append]; omega) hcap
    rw [List.map_cons, List.cons_append, execAll_cons_of_next (exec_continue_fuPayload m.1 hskip hopen),
      ih hskips (fuFinish_params ..) (fu_fuFinish_keep hkept) hcap, fuFinish_fuFinish_keep hkept]

/-- Settles O45: the start fragment opens a run with the unit's header byte, which
`execAll_continue` carries to the end. -/
theorem fragmentedUnitIsReassembled : Obligations.FragmentedUnitIsReassembled := by
  rintro k s nal h0 h1 skip0 skip1 first last mids body hskip0 hskip1 hskips rfl hcap
  have hopened : capAdmits s.params.fuBufCap (nal :: first).length = true :=
    capAdmits_mono (by simp only [List.length_append, List.length_cons]; omega) hcap
  rw [List.append_assoc, List.singleton_append, execAll_cons_of_next (exec_start_fuPayload h0 hskip0),
    execAll_continue hskip1 hskips (fuFinish_params ..) (fu_fuFinish_keep hopened) hcap,
    fuFinish_fuFinish_keep hopened]
  exact congrArg Host.Outcome.next (fuFinish_end hcap)

end Sys2Proof.Machine

/-! How a command ends (R270 to R274): every command answers one result, the error reported is the first condition met, and
an error leaves the machines but for a run over the cap: spec/60_exceptions.md. -/

namespace Sys2Proof.Machine

/-! ## One result per command (R37, R274) -/

/-- A command that decodes to no instruction raises (R92). -/
theorem step_of_decode_error {s : State} {c : Command} {e : DecodeError} (hc : s.command = some c)
    (hd : decode s.params.maxPktLen c = .error e) : step s = .next (s.takeCommand.raise .illegalCommand) := by
  simp only [step, hc, hd, illegalCommand]

/-- A command that is issued is taken and completes. -/
theorem step_completes {s : State} {c : Command} (hc : s.command = some c) :
    ∃ t, step s = .next t ∧ Completes s.takeCommand t := by
  cases hd : decode s.params.maxPktLen c with
  | error e => exact ⟨_, step_of_decode_error hc hd, raise_completes _ _⟩
  | ok i =>
    obtain ⟨t, ht, hcompletes⟩ := exec_completes i s.takeCommand
    exact ⟨t, (stepRunsDecodedInstruction s c i hc hd).trans ht, hcompletes⟩

/-- Settles O8: the empty port stops the step, and a command that is taken completes. -/
theorem everyCommandEndsInOneResult : Obligations.EveryCommandEndsInOneResult := by
  refine fun s => ⟨step_of_no_command, fun c hc => ?_⟩
  obtain ⟨t, ht, ⟨r, hr⟩, hparams, hcommand⟩ := step_completes hc
  exact ⟨t, r, ht, hcommand, hr, hparams⟩

/-! ## The first condition the packet meets (R271, R273) -/

section
variable {maxLen : Nat} {p : Bytes}

/-- The end of the CSRC list that HeaderParse computes is the arithmetic's (R133). -/
theorem fixedHeader_csrcEnd (p : Bytes) : 12 + 4 * (fixedHeader p).cc.toNat = csrcEnd p :=
  congrArg (12 + 4 * ·) (toNat_rtpCc p)

/-- HLEN of a packet with an extension, as HeaderParse computes it (R105, R135). -/
theorem hlenOf_of_ext (hx : xOf p = 1) : hlenOf p = csrcEnd p + 4 + 4 * (be16 p (csrcEnd p + 2)).toNat := by
  rw [hlenOf, if_pos hx, be16_toNat, Nat.add_assoc]

theorem headerParse_of_short_csrc (hmax : p.length ≤ maxLen) (h12 : 12 ≤ p.length) (hcsrc : p.length < csrcEnd p) :
    headerParse maxLen p = .error .shortCsrcList := by
  simp [headerParse, fixedHeader_csrcEnd, Nat.not_lt.mpr, *]

theorem headerParse_of_short_extHeader (hmax : p.length ≤ maxLen) (hcsrc : csrcEnd p ≤ p.length) (hx : xOf p = 1)
    (hext : p.length < csrcEnd p + 4) : headerParse maxLen p = .error .shortExtHeader := by
  have h12 : 12 ≤ p.length := (Nat.le_add_right 12 _).trans hcsrc
  have hx' : (fixedHeader p).x = true := (rtpX_iff p).mpr hx
  simp [headerParse, fixedHeader_csrcEnd, Nat.not_lt.mpr, *]

theorem headerParse_of_short_extData (hmax : p.length ≤ maxLen) (hx : xOf p = 1) (hext : csrcEnd p + 4 ≤ p.length)
    (hdata : p.length < hlenOf p) : headerParse maxLen p = .error .shortExtData := by
  have hcsrc : csrcEnd p ≤ p.length := by omega
  have h12 : 12 ≤ p.length := (Nat.le_add_right 12 _).trans hcsrc
  have hx' : (fixedHeader p).x = true := (rtpX_iff p).mpr hx
  simp [headerParse, fixedHeader_csrcEnd, ← hlenOf_of_ext hx, Nat.not_lt.mpr, *]

/-- A packet that holds its whole header gets past HeaderParse, with the arithmetic's HLEN and the flag P of its byte 0. -/
theorem headerParse_of_inside (hmax : p.length ≤ maxLen) (hcsrc : csrcEnd p ≤ p.length) (hin : hlenOf p ≤ p.length) :
    ∃ h, headerParse maxLen p = .ok h ∧ h.hlen = hlenOf p ∧ h.p = rtpP (u8 p 0) := by
  by_cases hx : xOf p = 1
  · exact ⟨_, headerParse_of_ext rfl hmax ((rtpX_iff p).mpr hx) (fixedHeader_csrcEnd p).symm rfl (hlenOf_of_ext hx) hin,
      rfl, rfl⟩
  · have hx' : (fixedHeader p).x = false := Bool.eq_false_of_not_eq_true (mt (rtpX_iff p).mp hx)
    refine ⟨_, headerParse_of_no_ext rfl hmax hx' ((fixedHeader_csrcEnd p).trans_le hcsrc), ?_, rfl⟩
    rw [hlenOf, if_neg hx]
    exact fixedHeader_csrcEnd p

/-- A padding count that does not fit behind the header is an overrun (R136). -/
theorem payload_of_overrun {h : Header} (hpad : padFlagOf p = 1) (hp : h.p = rtpP (u8 p 0))
    (hover : p.length = h.hlen ∨ p.length - h.hlen < padOf p) : payload p h = .error .paddingOverrun := by
  rw [(rtpP_iff p).mpr hpad] at hp
  rw [padOf, if_pos hpad, ← u8_toNat] at hover
  obtain hempty | hover := hover
  · simp [payload, hp, hempty]
  · simp [payload, hp, hover]

/-- The parser raises the first condition the packet meets. -/
theorem parsePacket_of_packetError_eq_some {e : Reason} (h : packetError maxLen p = some e) :
    parsePacket maxLen p = .error e := by
  unfold packetError at h
  split_ifs at h with hlong hshort hcsrc hext hdata hover <;> cases h
  · exact parsePacket_of_headerParse_error (headerParse_of_too_long hlong)
  · exact parsePacket_of_headerParse_error (headerParse_of_short (by omega) hshort)
  · exact parsePacket_of_headerParse_error (headerParse_of_short_csrc (by omega) (by omega) hcsrc)
  · exact parsePacket_of_headerParse_error (headerParse_of_short_extHeader (by omega) (by omega) hext.1 hext.2)
  · exact parsePacket_of_headerParse_error (headerParse_of_short_extData (by omega) hdata.1 (by omega) hdata.2)
  · have hin : hlenOf p ≤ p.length := by
      by_cases hx : xOf p = 1
      · omega
      · rw [hlenOf, if_neg hx]; omega
    obtain ⟨hd, hparse, hhlen, hp⟩ := headerParse_of_inside (show p.length ≤ maxLen by omega) (by omega) hin
    rw [parsePacket, hparse]
    exact payload_of_overrun hover.1 hp (hhlen ▸ hover.2)

/-- What the parser raises is the packet's first condition: the arithmetic leaves nothing out. -/
theorem packetError_of_parsePacket_error {e : Reason} (h : parsePacket maxLen p = .error e) :
    packetError maxLen p = some e := by
  cases herr : packetError maxLen p with
  | none => cases h.symm.trans (parsePacket_of_packetError_eq_none herr)
  | some e' => cases h.symm.trans (parsePacket_of_packetError_eq_some herr); rfl

/-- A packet whose padding ends where its header ends has no payload to extract (R172). -/
theorem extractOperands_of_no_payload (herr : packetError maxLen p = none) (hempty : hlenOf p + padOf p = p.length) :
    extractOperands maxLen p = .error .emptyPayload := by
  have hslice : (slice p (hlenOf p) (p.length - padOf p)).length = 0 := by rw [slice_length]; omega
  simp only [extractOperands, parsePacket_of_packetError_eq_none herr, hslice, if_true]

end

/-- EXTRACT raises what its operands raise, and changes nothing else (R172, R270). -/
theorem exec_extract_of_operands_error {p : Bytes} {s : State} {e : Reason}
    (h : extractOperands s.params.maxPktLen p = .error e) : exec (.extract p) s = .next (s.raise e) := by
  show execExtract p s = _
  rw [execExtract, h]

/-- Settles O20: both commands raise what the parser raises, and a packet that meets no condition parses. -/
theorem firstPacketErrorIsReported : Obligations.FirstPacketErrorIsReported := by
  refine fun p s => ⟨fun e he => exec_of_parsePacket_error (parsePacket_of_packetError_eq_some he), fun hnone => ⟨?_, ?_⟩⟩
  · obtain ⟨h, hparse, -⟩ := parseAnswersTheHeaderFields p s hnone
    exact ⟨h, _, hparse⟩
  · exact fun hempty => exec_extract_of_operands_error (extractOperands_of_no_payload hnone hempty)

/-! ## What an error leaves unchanged (R270, R272) -/

/-- How a command of the fragmentation type `own` may end: with a success, with an error that writes no machine, or with a
run over the cap, which idles the machine of its own type (R272). -/
inductive EndsPrecisely (own : Option FuType) (s : State) : State → Prop
  | success (t : State) (r : Result) (hr : ∀ e, r.status ≠ .error e) : EndsPrecisely own s (t.deliver r)
  | raised (e : Reason) (he : e ≠ .fragmentTooLarge) : EndsPrecisely own s (s.raise e)
  | tooLarge (k : FuType) (hk : own = some k) : EndsPrecisely own s ((s.setFu k .idle).raise .fragmentTooLarge)

section
variable {own : Option FuType} {s t : State} {maxLen : Nat} {p pl : Bytes} {e : Reason}

/-- Each of the three ends is precise: the error result is bare, and only FRAGMENT_TOO_LARGE writes a machine, its own. -/
theorem EndsPrecisely.error_precise {r : Result} (h : EndsPrecisely own s t) (hr : t.result = some r)
    (he : r.status = .error e) :
    r = errorResult e ∧ (e ≠ .fragmentTooLarge → t.fuA = s.fuA ∧ t.fuB = s.fuB) ∧
      (e = .fragmentTooLarge → ∃ k, own = some k ∧ t.fu k = .idle ∧ t.fu k.other = s.fu k.other) := by
  cases h with
  | success t' r' hsuccess => cases hr; exact absurd he (hsuccess e)
  | raised e' hne => cases hr; cases he; exact ⟨rfl, fun _ => ⟨rfl, rfl⟩, fun h => absurd h hne⟩
  | tooLarge k hk =>
    cases hr; cases he
    exact ⟨rfl, fun h => absurd rfl h, fun _ => ⟨k, hk, by simp, by simp [fu_setFu_of_ne _ _ _ k.other_ne]⟩⟩

/-- No condition on the packet before the dispatch is FRAGMENT_TOO_LARGE (R271). -/
theorem packetError_ne_fragmentTooLarge : packetError maxLen p ≠ some .fragmentTooLarge := by
  unfold packetError
  split_ifs <;> decide

theorem parsePacket_error_ne_fragmentTooLarge (h : parsePacket maxLen p = .error e) : e ≠ .fragmentTooLarge := by
  rintro rfl
  exact packetError_ne_fragmentTooLarge (packetError_of_parsePacket_error h)

theorem extractOperands_error_ne_fragmentTooLarge (h : extractOperands maxLen p = .error e) :
    e ≠ .fragmentTooLarge := by
  unfold extractOperands at h
  split at h
  · next hparse => cases h; exact parsePacket_error_ne_fragmentTooLarge hparse
  · split_ifs at h; cases h; decide

/-- The walk raises only its own conditions, by induction over the entries (R190). -/
theorem aggLoop_error_ne_fragmentTooLarge {f : Framing} {t : AggType} {pdon ptso : Option (BitVec 16)} :
    ∀ {fuel o i : Nat}, aggLoop f t pl pdon ptso fuel o i = .error e → e ≠ .fragmentTooLarge := by
  intro fuel
  induction fuel with
  | zero => intro o i h; cases h
  | succ n ih =>
    intro o i h
    by_cases ho : o < pl.length
    · obtain ⟨_, bad⟩ | ⟨_, _, bad⟩ | ⟨_, _, _, bad⟩ | ⟨_, _, good⟩ :=
        aggLoop_entry (f := f) (t := t) (pdon := pdon) (ptso := ptso) (fuel := n) (i := i) ho
      · cases bad.symm.trans h; split_ifs <;> decide
      · cases bad.symm.trans h; decide
      · cases bad.symm.trans h; decide
      · rw [good] at h
        split at h <;> cases h
        next hrest => exact ih hrest
    · cases (aggLoop_at_end (by omega)).symm.trans h

theorem aggWalk_error_ne_fragmentTooLarge {f : Framing} {t : AggType} {h : Header}
    (hw : aggWalk f t h pl = .error e) : e ≠ .fragmentTooLarge := by
  simp only [aggWalk] at hw
  split at hw
  · cases hw; decide
  · split at hw <;> cases hw
    next hloop => exact aggLoop_error_ne_fragmentTooLarge hloop

theorem aggOp_endsPrecisely (t : AggType) (h : Header) (pl : Bytes) (s : State) :
    EndsPrecisely own s (aggOp t h pl s) := by
  obtain ⟨e, hw, herr⟩ | ⟨r, _, hseq, hok⟩ := aggOp_cases t h pl s
  · exact herr ▸ .raised e (aggWalk_error_ne_fragmentTooLarge hw)
  · exact hok ▸ .success s r fun _ => by simp [hseq]

theorem fuStep_endsPrecisely (k : FuType) (start stop : Bool) (h : Header) (pl : Bytes) (s : State) :
    EndsPrecisely (some k) s (fuStep k start stop h pl s) := by
  obtain ⟨_, short⟩ | ⟨_, ⟨_, _, orphan⟩ | ⟨nb, _, ⟨_, tooLarge⟩ | ⟨_, _, emitted⟩ | ⟨_, _, kept⟩⟩⟩ :=
    fuStep_cases k start stop h pl s
  · exact short ▸ .raised _ (by decide)
  · exact orphan ▸ .raised _ (by decide)
  · exact tooLarge ▸ .tooLarge k rfl
  · exact emitted ▸ .success _ _ (fun _ => nofun)
  · exact kept ▸ .success _ _ (fun _ => nofun)

theorem fuOp_endsPrecisely (k : FuType) (h : Header) (pl : Bytes) (s : State) :
    EndsPrecisely (some k) s (fuOp k h pl s) := fuStep_endsPrecisely k _ _ h pl s

/-- EXTRACT's dispatch ends as a command of the payload's own type (R98, R172). -/
theorem dispatchNal_endsPrecisely (h : Header) (pl : Bytes) (s : State) :
    EndsPrecisely (fuTypeOfPayload pl) s (dispatchNal h pl s) := by
  have hlt : (nalType (u8 pl 0)).toNat < 32 := (nalType (u8 pl 0)).isLt
  simp only [dispatchNal]
  split_ifs with hres hsingle h24 h25 h26 h27 h28
  · exact .success s _ (fun _ => nofun)
  · exact .success s _ (fun _ => nofun)
  · exact aggOp_endsPrecisely .stapA h pl s
  · exact aggOp_endsPrecisely .stapB h pl s
  · exact aggOp_endsPrecisely .mtap16 h pl s
  · exact aggOp_endsPrecisely .mtap24 h pl s
  · have hown : fuTypeOfPayload pl = some .A := if_pos h28
    exact hown ▸ fuOp_endsPrecisely .A h pl s
  · have hown : fuTypeOfPayload pl = some .B := (if_neg h28).trans (if_pos (by omega))
    exact hown ▸ fuOp_endsPrecisely .B h pl s

theorem execParse_endsPrecisely (ht : execParse p s = .next t) : EndsPrecisely own s t := by
  unfold execParse at ht
  split at ht <;> cases ht
  · next hparse => exact .raised _ (parsePacket_error_ne_fragmentTooLarge hparse)
  · exact .success s _ (fun _ => nofun)

theorem execExtract_endsPrecisely (ht : execExtract p s = .next t) :
    EndsPrecisely (fuTypeOf s.params.maxPktLen (.extract p)) s t := by
  cases hop : extractOperands s.params.maxPktLen p with
  | error e =>
    cases (exec_extract_of_operands_error hop).symm.trans ht
    exact .raised e (extractOperands_error_ne_fragmentTooLarge hop)
  | ok operands =>
    obtain ⟨h, pl⟩ := operands
    have hown : fuTypeOf s.params.maxPktLen (.extract p) = fuTypeOfPayload pl := by simp only [fuTypeOf, hop]
    cases (exec_extract_of_operands hop).symm.trans ht
    exact hown ▸ dispatchNal_endsPrecisely h pl s

/-- Every instruction ends precisely, as a command of its own fragmentation type. -/
theorem exec_endsPrecisely {i : Instr} (ht : exec i s = .next t) :
    EndsPrecisely (fuTypeOf s.params.maxPktLen i) s t := by
  cases i with
  | reset => cases ht; exact .success _ _ (fun _ => nofun)
  | parse p => exact execParse_endsPrecisely ht
  | extract p => exact execExtract_endsPrecisely ht
  | reservedType0 | reservedType30To31 => cases ht; exact .success s _ (fun _ => nofun)
  | singleNalType1 | singleNalType2To3 | singleNalType4To7 | singleNalType8To15 | singleNalType16To23 =>
    cases ht; exact .success s _ (fun _ => nofun)
  | stapA | stapB | mtap16 | mtap24 => cases ht; exact aggOp_endsPrecisely _ _ _ s
  | fuA | fuB => cases ht; exact fuOp_endsPrecisely _ _ _ s
  | fuAStart | fuAMiddle | fuAEnd | fuAStartEnd | fuBStart | fuBMiddle | fuBEnd | fuBStartEnd =>
    cases ht; exact fuStep_endsPrecisely _ _ _ _ _ s

end

/-- Settles O48: an undefined code raises ILLEGAL_COMMAND, and what a step decodes ends precisely. -/
theorem errorsArePrecise : Obligations.ErrorsArePrecise := by
  intro s t c r e hc ht hr he
  cases hd : decode s.params.maxPktLen c with
  | error _ =>
    cases (step_of_decode_error hc hd).symm.trans ht
    have hend : EndsPrecisely none s.takeCommand (s.takeCommand.raise .illegalCommand) := .raised _ (by decide)
    obtain ⟨hbare, hkept, htoo⟩ := hend.error_precise hr he
    exact ⟨hbare, hkept, fun h => have ⟨_, hnone, _⟩ := htoo h; nomatch hnone⟩
  | ok i =>
    rw [stepRunsDecodedInstruction s c i hc hd] at ht
    have hend := exec_endsPrecisely (s := s.takeCommand) ht
    obtain ⟨hbare, hkept, htoo⟩ := hend.error_precise hr he
    refine ⟨hbare, hkept, fun h => ?_⟩
    obtain ⟨k, hown, hidle, hother⟩ := htoo h
    exact ⟨i, k, rfl, hown, hidle, hother.trans (fu_takeCommand s k.other)⟩

end Sys2Proof.Machine

/-! The state of the two machines at power-on (R300): spec/70_reset_and_hazards.md. -/

namespace Sys2Proof.Machine

/-- Settles O1: `State.reset` writes both machines idle, so each field reads back what it was given. -/
theorem powerOnMachinesAreIdle : Obligations.PowerOnMachinesAreIdle := ⟨rfl, rfl⟩

end Sys2Proof.Machine
